-- ==== Sys2Proof/Word.lean ====
section
/-! DEFINITION. The widths of the core's words: a byte (00_scope.md R8 `BYTE_WIDTH`) and the 9-bit program counter and stack
pointer (R8 `PC_WIDTH`, `SP_WIDTH`). -/

namespace Sys2Proof

/-- An 8-bit unsigned value: a register, a memory cell, an operand byte, FL. -/
abbrev Byte := BitVec 8

/-- A program counter or a stack pointer: 9 bits, of which 0 to 256 are reachable (00_scope.md R8, decision D4). -/
abbrev Ptr := BitVec 9

/-- The value of a pointer as the mathematical integer that address arithmetic is done on (00_scope.md R10). -/
abbrev Ptr.int (p : Ptr) : Int := (p.toNat : Int)

end Sys2Proof
end

