-- ==== Sys2Proof/Config.lean ====
section
/-! DEFINITION. The implementation parameters of 00_scope.md R8, and the free values: what the spec leaves open has no body here. -/

namespace Sys2Proof

/-- `MEM_SIZE`: addresses are 0 to 255. -/
abbrev Config.memSize : Nat := 256

/-- `REG_COUNT`: indices are 0 to 7. -/
abbrev Config.regCount : Nat := 8

/-- `PC_RESET` (R24). -/
abbrev Config.pcReset : Ptr := 0

/-- `SP_RESET`: 0xF4 (R25). -/
abbrev Config.spReset : Ptr := 0xF4

/-- `FL_RESET` (R26). -/
abbrev Config.flReset : Byte := 0

/-- DESIGN CHOICE (log 4). The `ir` that the error record holds when the opcode fetch itself is out of range, so that no opcode
byte was read: R152 records "`pc` and `ir` of the instruction" and gives no value there. The argument is the state's counter of
such draws. Safe: nothing can be proved of the value. -/
opaque Config.unfetchedIr : Nat → Byte

/-- `LOAD_FAIL_CODES` (R96, decision D25): "three distinct, stable failure codes" whose numbers the spec does not give. -/
structure LoadFailCodes where
  programFileNotFound : Nat := 0
  invalidInstructionLiteral : Nat := 1
  emptyProgram : Nat := 2
  distinct : [programFileNotFound, invalidInstructionLiteral, emptyProgram].Nodup := by decide
  deriving Inhabited

/-- The codes themselves: free, but distinct (log 20). -/
opaque Config.loadFailCodes : LoadFailCodes

end Sys2Proof
end

