-- ==== Sys2Proof/Machine/State.lean ====
section
/-! DEFINITION. The architectural state of the core (spec/10_state.md), the records of its fatal errors (spec/60_exceptions.md), and
the state after reset (spec/70_reset_and_hazards.md R180). -/

namespace Sys2Proof.Machine

/-- What an AddressOutOfRange names as out of range (60_exceptions.md R152). -/
inductive Space where
  | memory
  | register
  deriving DecidableEq, Repr

/-- The fatal errors with what they record (60_exceptions.md R150 to R153, R158; decision D11). -/
inductive FatalError where
  /-- R151: the byte `ir` fetched at `pc` is in no row of the opcode table. -/
  | unknownOpcode (pc : Ptr) (ir : Byte)
  /-- R152: a memory address outside 0 to 255 or a register index outside 0 to 7, with `pc` and `ir` of the instruction. -/
  | addressOutOfRange (space : Space) (value : Int) (pc : Ptr) (ir : Byte)
  /-- R153: the ALU invoked with another operation code than ADD, MUL and CMP; no program raises it (R86). -/
  | unsupportedAluOperation
  deriving DecidableEq, Repr

/-- What `run()` returns (60_exceptions.md R158). -/
inductive TerminationReason where
  | halted
  | fatal (e : FatalError)
  deriving DecidableEq, Repr

/-- The run state (10_state.md R27). Halted and Faulted are absorbing. -/
inductive RunState where
  | running
  | halted
  | faulted (e : FatalError)
  deriving DecidableEq, Repr

/-- The memory as its listed cells, in canonical form (`Memory.wf` in Machine/Ops.lean). -/
abbrev Memory := List Host.Cell

/-- Everything the spec gives the core. -/
structure State where
  /-- R0 to R7 (R20). R7 is an ordinary register (R23). -/
  regs : Vector Byte 8
  /-- The program counter (R24). -/
  pc : Ptr
  /-- The stack pointer, no general register (R25, R23). -/
  sp : Ptr
  /-- The flags register FL, layout 00000LGE (R26). -/
  fl : Byte
  /-- The run state (R27). -/
  run : RunState
  /-- The memory of 256 bytes (R28, R40). -/
  mem : Memory
  /-- The output record, oldest value first (R30). -/
  output : List Byte
  /-- The latch `ir`, the opcode byte fetched at `pc` (R31, R82). -/
  ir : Byte
  /-- The latch `operand_a`, the byte fetched at `pc + 1` (R31, R82). -/
  operandA : Byte
  /-- The latch `operand_b`, the byte fetched at `pc + 2` (R31, R82). -/
  operandB : Byte
  /-- DESIGN CHOICE (log 4): the model's own, not the spec's: how many free values have been drawn. -/
  draws : Nat
  deriving DecidableEq, Repr

/-- Why `step` stops. A fatal error of the core is NOT one of these: it is a next state whose run state is Faulted (log 5). -/
inductive Fault where
  /-- Raised by `step`, and by nothing else, when the run state is Halted or Faulted, in which no step is enabled (R81). Safe: the
  core takes no step there. It carries what `run()` returns again (R89). -/
  | terminated (reason : TerminationReason)
  deriving DecidableEq, Repr

/-- Why the model gives no meaning. -/
inductive Refusal where
  /-- Raised by an arm of `exec` whose instruction has no meaning yet; no arm of this model does. Safe. -/
  | notModelled (mnemonic : String)
  deriving DecidableEq, Repr

/-- The state after reset (R180). The registers, the memory and the latches have no reset value in the spec: their zeros are
DESIGN CHOICE (log 1, log 2, log 3), and `launch` (Machine/Environment.lean) takes any registers and any memory instead. -/
def State.reset : State where
  regs := Vector.replicate 8 0
  pc := Config.pcReset
  sp := Config.spReset
  fl := Config.flReset
  run := .running
  mem := []
  output := []
  ir := 0
  operandA := 0
  operandB := 0
  draws := 0

end Sys2Proof.Machine
end

