-- ==== Sys2Proof/Machine/Flags.lean ====
section
/-! DEFINITION. The flags register FL, layout 00000LGE (spec/10_state.md R26), its computation by CMP (spec/42_alu.md R112) and the
one condition the core tests (spec/44_control_flow.md R137). -/

namespace Sys2Proof.Machine

/-- Bit 0, E (Equal). -/
def flagE (fl : Byte) : Bool := fl[0]

/-- Bit 1, G (Greater). -/
def flagG (fl : Byte) : Bool := fl[1]

/-- Bit 2, L (Less). -/
def flagL (fl : Byte) : Bool := fl[2]

/-- FL after a comparison of two register values as unsigned numbers (R112, decision D21): the whole register is written and exactly
one flag is set. -/
def compareFlags (va vb : Byte) : Byte :=
  if va = vb then 0b00000001
  else if va.toNat < vb.toNat then 0b00000100
  else 0b00000010

/-- JEQ's condition, and the negation of JNE's: `FL[0] = 1` (R133, R134, R137). -/
def equalSet (s : State) : Bool := flagE s.fl

end Sys2Proof.Machine
end

