-- ==== Sys2Proof/Syntax.lean ====
section
/-! DEFINITION. The 13 instructions (00_scope.md R3; 30_encoding.md R60, R61, R65), one constructor per row of spec/opcode_table.json,
and the 13 operation codes the dispatch table is indexed by. -/

namespace Sys2Proof

/-- One instruction with its operand bytes. A register operand (`a`, `b`) is the whole operand byte, not masked to 3 bits (R61):
values 8 to 255 are encodable, and raise only when the instruction uses the register (10_state.md R22). -/
inductive Instr where
  /-- HLT (R100), format N. -/
  | hlt
  /-- LDI (R101), format RI: destination register index, immediate. -/
  | ldi (a imm : Byte)
  /-- PRN (R102), format R: source register index. -/
  | prn (a : Byte)
  /-- MUL (R110), format RR: destination and first source, second source. -/
  | mul (a b : Byte)
  /-- ADD (R111), format RR: destination and first source, second source. -/
  | add (a b : Byte)
  /-- CMP (R112), format RR: two sources. -/
  | cmp (a b : Byte)
  /-- PUSH (R122), format R: source register index. -/
  | push (a : Byte)
  /-- POP (R123), format R: destination register index. -/
  | pop (a : Byte)
  /-- CALL (R130), format R: register holding the target. -/
  | call (a : Byte)
  /-- RET (R131), format N. -/
  | ret
  /-- JMP (R132), format R: register holding the target. -/
  | jmp (a : Byte)
  /-- JEQ (R133), format R: register holding the target. -/
  | jeq (a : Byte)
  /-- JNE (R134), format R: register holding the target. -/
  | jne (a : Byte)
  deriving DecidableEq, Repr

/-- The operation an opcode byte identifies (00_scope.md R12, "Opcode"), without its operands. -/
inductive Op where
  | hlt | ldi | prn | mul | add | cmp | push | pop | call | ret | jmp | jeq | jne
  deriving DecidableEq, Repr

/-- The operation of an instruction. -/
def Instr.op : Instr → Op
  | .hlt => .hlt
  | .ldi _ _ => .ldi
  | .prn _ => .prn
  | .mul _ _ => .mul
  | .add _ _ => .add
  | .cmp _ _ => .cmp
  | .push _ => .push
  | .pop _ => .pop
  | .call _ => .call
  | .ret => .ret
  | .jmp _ => .jmp
  | .jeq _ => .jeq
  | .jne _ => .jne

end Sys2Proof
end

