-- ==== Sys2Proof/Decode.lean ====
section
/-! DEFINITION. Decoding and encoding (spec/30_encoding.md). Decoding compares the whole opcode byte with the 13 rows of the static
opcode table (R64, R65) and uses nothing else; every other byte is rejected by name (R66). -/

namespace Sys2Proof

/-- Why bytes are no instruction: the opcode byte is in no row of R65 (R66). -/
inductive Reject where
  /-- `ir` is one of the 243 illegal opcode bytes. Raised by `decode`; the step turns it into UnknownOpcode. -/
  | unknownOpcode (ir : Byte)
  deriving DecidableEq, Repr

/-- The opcode byte of each operation (R65). -/
def Op.opcode : Op → Byte
  | .hlt => 0b00000001
  | .ldi => 0b10000010
  | .prn => 0b01000111
  | .mul => 0b10100010
  | .add => 0b10100000
  | .cmp => 0b10100111
  | .push => 0b01000101
  | .pop => 0b01000110
  | .call => 0b01010000
  | .ret => 0b00010001
  | .jmp => 0b01010100
  | .jeq => 0b01010101
  | .jne => 0b01010110

/-- The operations in the document's table order (R65). -/
def opcodeTable : List Op :=
  [.hlt, .ldi, .prn, .mul, .add, .cmp, .push, .pop, .call, .ret, .jmp, .jeq, .jne]

/-- The four formats (R60). -/
inductive Format where
  /-- The opcode alone. -/
  | n
  /-- The opcode and a register index. -/
  | r
  /-- The opcode, a register index and an immediate. -/
  | ri
  /-- The opcode and two register indices. -/
  | rr
  deriving DecidableEq, Repr

/-- The format of each operation (R60, R65). -/
def Op.format : Op → Format
  | .hlt => .n
  | .ret => .n
  | .prn => .r
  | .push => .r
  | .pop => .r
  | .call => .r
  | .jmp => .r
  | .jeq => .r
  | .jne => .r
  | .ldi => .ri
  | .mul => .rr
  | .add => .rr
  | .cmp => .rr

/-- The length of a format in bytes (R60, R63). -/
def Format.length : Format → Nat
  | .n => 1
  | .r => 2
  | .ri => 3
  | .rr => 3

/-- The length of an operation's instruction in bytes, known from its opcode alone (R63, R68). -/
def Op.length (op : Op) : Nat := op.format.length

/-- The length of an instruction in bytes. -/
def Instr.length (i : Instr) : Nat := i.op.length

/-- The opcode byte of an instruction. -/
def Instr.opcode (i : Instr) : Byte := i.op.opcode

/-- The instruction of an operation with the operand bytes fetched at `pc + 1` and `pc + 2`; an operand byte the format does not
use has no effect (R62). -/
def Op.instr (op : Op) (operandA operandB : Byte) : Instr :=
  match op with
  | .hlt => .hlt
  | .ldi => .ldi operandA operandB
  | .prn => .prn operandA
  | .mul => .mul operandA operandB
  | .add => .add operandA operandB
  | .cmp => .cmp operandA operandB
  | .push => .push operandA
  | .pop => .pop operandA
  | .call => .call operandA
  | .ret => .ret
  | .jmp => .jmp operandA
  | .jeq => .jeq operandA
  | .jne => .jne operandA

/-- The row of the static opcode table whose opcode equals all 8 bits of `ir` (R64). -/
def lookupOpcode (ir : Byte) : Option Op := opcodeTable.find? fun op => op.opcode == ir

/-- Decode the three fetched bytes (40_cycle.md R83): the instruction, or the rejection of R66. -/
def decode (ir operandA operandB : Byte) : Except Reject Instr :=
  match lookupOpcode ir with
  | none => .error (.unknownOpcode ir)
  | some op => .ok (op.instr operandA operandB)

/-- The bytes of an instruction in increasing address order (R60, 20_memory.md R44). -/
def encode : Instr → List Byte
  | .hlt => [0b00000001]
  | .ldi a imm => [0b10000010, a, imm]
  | .prn a => [0b01000111, a]
  | .mul a b => [0b10100010, a, b]
  | .add a b => [0b10100000, a, b]
  | .cmp a b => [0b10100111, a, b]
  | .push a => [0b01000101, a]
  | .pop a => [0b01000110, a]
  | .call a => [0b01010000, a]
  | .ret => [0b00010001]
  | .jmp a => [0b01010100, a]
  | .jeq a => [0b01010101, a]
  | .jne a => [0b01010110, a]

/-- The longest instruction, and what the cycle always fetches: three bytes (40_cycle.md R82). -/
def fetchLength : Nat := 3

/-- Byte k of an instruction's word of `nbits` bits, numbered as spec/opcode_table.json numbers them: the first byte is bits 7 to 0,
the second bits 15 to 8, the third bits 23 to 16; every bit from `nbits` on is 0. -/
def wordByte (nbits w k : Nat) : Byte := BitVec.ofNat 8 (w % 2 ^ nbits / 256 ^ k)

/-- The instruction the decoder reads from a table word; none where the decoder rejects it. -/
def decodeTableWord (nbits w : Nat) : Option Instr :=
  match decode (wordByte nbits w 0) (wordByte nbits w 1) (wordByte nbits w 2) with
  | .error _ => none
  | .ok i => some i

end Sys2Proof
end

