-- ==== Sys2Proof/Machine/Ops.lean ====
section
/-! DEFINITION. The named operations on memory, stack, output and run state that every instruction is made of (the pseudocode
primitives of 00_scope.md R10), taking a fatal error (60_exceptions.md R156), and the fetch (40_cycle.md R82).

An operation that may raise answers `Except FatalError _`: the first `raise` reached ends the instruction (R10). -/

namespace Sys2Proof.Machine

/-! ### Memory contents -/

/-- What an address that no cell lists reads as. DESIGN CHOICE (log 2): the spec leaves `MEM_INIT` open; since every other byte can be
listed, a start memory is still any 256 bytes. -/
def Memory.unlisted (_a : Nat) : Byte := 0

/-- The byte held at address `a` (R41). -/
def Memory.get : Memory → Nat → Byte
  | [], a => Memory.unlisted a
  | (x, c) :: m, a => if x = a then c else Memory.get m a

/-- Put a cell in front of the first cell at a higher address. -/
def Memory.insert (a : Nat) (b : Byte) : Memory → Memory
  | [] => [(a, b)]
  | (x, c) :: m => if a < x then (a, b) :: (x, c) :: m else (x, c) :: Memory.insert a b m

/-- The memory with byte `b` at address `a` (R41), in canonical form again: the byte an unlisted address reads as is not listed. -/
def Memory.set (m : Memory) (a : Nat) (b : Byte) : Memory :=
  if b = Memory.unlisted a then m.filter fun cell => cell.1 != a
  else Memory.insert a b (m.filter fun cell => cell.1 != a)

/-- Every listed address lies in 0 to 255 and above the one before it, and no cell holds what an unlisted address reads as. -/
def Memory.wfFrom : Nat → Memory → Bool
  | _, [] => true
  | low, (a, b) :: m =>
    decide (low ≤ a) && decide (a < Config.memSize) && decide (b ≠ Memory.unlisted a) && Memory.wfFrom (a + 1) m

/-- The canonical form of a memory of exactly 256 bytes (R40): equal memories are equal lists. -/
def Memory.wf (m : Memory) : Bool := Memory.wfFrom 0 m

/-! ### Taking a fatal error -/

/-- Take a fatal error: the run state becomes Faulted with the error's record, and nothing else changes (R156). There is no vector,
no handler and no saved register (R159), and no return from an error (R160). -/
def raise (e : FatalError) (s : State) : State := { s with run := .faulted e }

/-- The record of an AddressOutOfRange: the space, the offending value, and `pc` and `ir` of the instruction (R152). -/
def outOfRange (space : Space) (value : Int) (s : State) : FatalError :=
  .addressOutOfRange space value s.pc s.ir

/-- The outcome of an instruction's execution in state `s`: its new state, or `s` with the fatal error taken (R156). -/
def finish (s : State) : Except FatalError State → Host.Outcome State Fault Refusal
  | .ok t => .next t
  | .error e => .next (raise e s)

/-- What a step from `s` keeps of its instruction's outcome: everything, or, when the instruction raised, nothing but the error
(R156: "keeps none of its changes"), the latches written by the fetch among what is dropped (log 6). -/
def keepIfFaulted (s : State) : Host.Outcome State Fault Refusal → Host.Outcome State Fault Refusal
  | .next t =>
    match t.run with
    | .faulted e => .next (raise e s)
    | .running => .next t
    | .halted => .next t
  | .fault f => .fault f
  | .refused r => .refused r

/-- `halt`: the run state becomes Halted (R10, R100). -/
def halt (s : State) : State := { s with run := .halted }

/-! ### Memory accesses -/

/-- The address is one of the memory's: 0 to 255 as a mathematical integer (R42). -/
def inMemory (addr : Int) : Bool := decide (0 ≤ addr) && decide (addr < (Config.memSize : Int))

/-- `MemRead(addr, 1)` (R10, R41, R42). -/
def memRead (addr : Int) (s : State) : Except FatalError Byte :=
  if inMemory addr then .ok (s.mem.get addr.toNat) else .error (outOfRange .memory addr s)

/-- `MemWrite(addr, 1, v)` (R10, R41, R42). -/
def memWrite (addr : Int) (v : Byte) (s : State) : Except FatalError State :=
  if inMemory addr then .ok { s with mem := s.mem.set addr.toNat v } else .error (outOfRange .memory addr s)

/-! ### Stack primitives -/

/-- A pointer holding a mathematical integer. -/
def Ptr.ofInt (a : Int) : Ptr := BitVec.ofInt 9 a

/-- `push(v)` (R120): store below the stack pointer, then lower it. -/
def push (v : Byte) (s : State) : Except FatalError State := do
  let a := s.sp.int - 1
  let t ← memWrite a v s
  .ok { t with sp := Ptr.ofInt a }

/-- `pop()` (R121): read at the stack pointer, then raise it; the byte stays in memory. -/
def pop (s : State) : Except FatalError (Byte × State) := do
  let v ← memRead s.sp.int s
  .ok (v, { s with sp := Ptr.ofInt (s.sp.int + 1) })

/-! ### Program counter and output -/

/-- The sequential advance of `pc` by the operation's instruction length (R24, R63). -/
def advance (op : Op) (s : State) : State := { s with pc := s.pc + BitVec.ofNat 9 op.length }

/-- A control transfer: `pc` is assigned a byte, which is not checked (R135). -/
def jumpTo (target : Byte) (s : State) : State := { s with pc := target.setWidth 9 }

/-- The address after a CALL, `pc + 2` (R130), as the byte that is pushed. In a step it is 2 to 255 and fits (R130); a CALL executed
apart from a step at a `pc` above 253 pushes its low byte: DESIGN CHOICE (log 9). -/
def returnAddress (s : State) : Byte := (s.pc + BitVec.ofNat 9 Op.call.length).setWidth 8

/-- `emit(v)`: one output event, kept at the end of the output record (R10, R30, R98). -/
def emit (v : Byte) (s : State) : State := { s with output := s.output ++ [v] }

/-! ### Fetch -/

/-- The fetch of R82: three reads in this order into the latches, each range-checked, whatever the instruction's length. Before the
first read no opcode byte of this instruction exists, so a failing first read records a free value as `ir` (log 4). -/
def fetch (s : State) : Except FatalError State := do
  let s0 := { s with ir := Config.unfetchedIr s.draws }
  let opcode ← memRead s.pc.int s0
  let s1 := { s0 with ir := opcode }
  let first ← memRead (s.pc.int + 1) s1
  let second ← memRead (s.pc.int + 2) s1
  .ok { s1 with operandA := first, operandB := second }

/-- A fetch that raised (R156): nothing but the run state changes, and a free value that was drawn is spent (log 4). -/
def raiseInFetch (e : FatalError) (s : State) : State :=
  if inMemory s.pc.int then raise e s else raise e { s with draws := s.draws + 1 }

/-- The decode of R83 on the latches. -/
def decodeLatched (s : State) : Except Reject Instr := decode s.ir s.operandA s.operandB

/-- The record of an UnknownOpcode in a state whose latches hold the fetched bytes (R151). -/
def unknownOpcode (r : Reject) (s : State) : FatalError :=
  match r with
  | .unknownOpcode ir => .unknownOpcode s.pc ir

/-- What the execute phase of a step does (R83, R84): `s` is the state before the step, `f` the same state with the fetched bytes in
its latches, `run` the meaning of each instruction. -/
def executeFetched (run : Instr → State → Host.Outcome State Fault Refusal) (s f : State) :
    Host.Outcome State Fault Refusal :=
  match decodeLatched f with
  | .error r => .next (raise (unknownOpcode r f) s)
  | .ok i => keepIfFaulted s (run i f)

/-- Put a byte at address `a` from outside the machine: an address that does not exist takes none. -/
def Memory.place (m : Memory) (a : Nat) (b : Byte) : Memory := if a < Config.memSize then m.set a b else m

/-- The state with a table word's bytes where the fetch reads its next instruction: at `pc`, `pc + 1` and `pc + 2`, as far as these are
addresses. Nothing else changes (log 7). -/
def storeFetchBytes (nbits w : Nat) (s : State) : State :=
  let p := s.pc.toNat
  let m0 := s.mem.place p (wordByte nbits w 0)
  let m1 := m0.place (p + 1) (wordByte nbits w 1)
  { s with mem := m1.place (p + 2) (wordByte nbits w 2) }

end Sys2Proof.Machine
end

