-- ==== Sys2Proof/Machine/Operands.lean ====
section
/-! DEFINITION. The operand forms (spec/30_encoding.md R61; spec/10_state.md R21, R22): a register index as a whole byte, checked when
the register is read or written, and an 8-bit immediate. There is no other form. -/

namespace Sys2Proof.Machine

/-- `x[i]` as a source (R10, R22). -/
def readReg (i : Byte) (s : State) : Except FatalError Byte :=
  if h : i.toNat < 8 then .ok s.regs[i.toNat] else .error (outOfRange .register (i.toNat : Int) s)

/-- `x[i] <- v` (R10, R21, R22): every write stores `v` masked to 8 bits, `v mod 256`. -/
def writeReg (i : Byte) (v : Nat) (s : State) : Except FatalError State :=
  if h : i.toNat < 8 then .ok { s with regs := s.regs.set i.toNat (BitVec.ofNat 8 v) }
  else .error (outOfRange .register (i.toNat : Int) s)

/-- The index check alone (R123: "check operand_a <= 7, else raise"). -/
def checkReg (i : Byte) (s : State) : Except FatalError Unit :=
  if i.toNat < 8 then .ok () else .error (outOfRange .register (i.toNat : Int) s)

/-- An immediate operand's value: the whole byte, 0 to 255, never sign-extended (R61). -/
def immediate (imm : Byte) : Nat := imm.toNat

end Sys2Proof.Machine
end

