-- ==== Sys2Proof/Machine/Alu.lean ====
section
/-! DEFINITION. The ALU and its instructions MUL, ADD and CMP (spec/42_alu.md; spec/40_cycle.md R86). -/

namespace Sys2Proof.Machine

/-- The ALU on registers `a` and `b`. Index `a` is checked before `b` (R157). ADD and MUL compute the exact result, and the register
write keeps its low 8 bits (R113, R21). Any other operation code is UnsupportedAluOperation (R86, R153); that an operation code is an
`Op` is DESIGN CHOICE (log 21). -/
def alu (op : Op) (a b : Byte) (s : State) : Except FatalError State :=
  match op with
  | .mul => do
    let va ← readReg a s
    let vb ← readReg b s
    writeReg a (va.toNat * vb.toNat) s
  | .add => do
    let va ← readReg a s
    let vb ← readReg b s
    writeReg a (va.toNat + vb.toNat) s
  | .cmp => do
    let va ← readReg a s
    let vb ← readReg b s
    .ok { s with fl := compareFlags va vb }
  | .hlt => .error .unsupportedAluOperation
  | .ldi => .error .unsupportedAluOperation
  | .prn => .error .unsupportedAluOperation
  | .push => .error .unsupportedAluOperation
  | .pop => .error .unsupportedAluOperation
  | .call => .error .unsupportedAluOperation
  | .ret => .error .unsupportedAluOperation
  | .jmp => .error .unsupportedAluOperation
  | .jeq => .error .unsupportedAluOperation
  | .jne => .error .unsupportedAluOperation

/-- MUL (R110): `x[a] <- (x[a] * x[b]) mod 256`; no flag changes. -/
def execMul (a b : Byte) (s : State) : Host.Outcome State Fault Refusal :=
  finish s do
    let t ← alu .mul a b s
    .ok (advance .mul t)

/-- ADD (R111): `x[a] <- (x[a] + x[b]) mod 256`; no flag changes. -/
def execAdd (a b : Byte) (s : State) : Host.Outcome State Fault Refusal :=
  finish s do
    let t ← alu .add a b s
    .ok (advance .add t)

/-- CMP (R112): FL from the unsigned comparison of `x[a]` with `x[b]`; no register changes. -/
def execCmp (a b : Byte) (s : State) : Host.Outcome State Fault Refusal :=
  finish s do
    let t ← alu .cmp a b s
    .ok (advance .cmp t)

end Sys2Proof.Machine
end

