-- ==== Sys2Proof/Machine/Control.lean ====
section
/-! DEFINITION. CALL, RET, JMP, JEQ and JNE (spec/44_control_flow.md). -/

namespace Sys2Proof.Machine

/-- CALL (R130): read the target, push the address after the CALL, go to the target. -/
def execCall (a : Byte) (s : State) : Host.Outcome State Fault Refusal :=
  finish s do
    let target ← readReg a s
    let t ← push (returnAddress s) s
    .ok (jumpTo target t)

/-- RET (R131): go to the popped byte, whoever pushed it. -/
def execRet (s : State) : Host.Outcome State Fault Refusal :=
  finish s do
    let (target, t) ← pop s
    .ok (jumpTo target t)

/-- JMP (R132): go to `x[a]`. -/
def execJmp (a : Byte) (s : State) : Host.Outcome State Fault Refusal :=
  finish s do
    let target ← readReg a s
    .ok (jumpTo target s)

/-- JEQ (R133): go to `x[a]` if E is set; otherwise advance without reading, or checking, the register (decision D9). -/
def execJeq (a : Byte) (s : State) : Host.Outcome State Fault Refusal :=
  finish s
    (if equalSet s then do
      let target ← readReg a s
      .ok (jumpTo target s)
    else .ok (advance .jeq s))

/-- JNE (R134): go to `x[a]` if E is clear; otherwise advance without reading, or checking, the register (decision D9). -/
def execJne (a : Byte) (s : State) : Host.Outcome State Fault Refusal :=
  finish s
    (if equalSet s then .ok (advance .jne s)
    else do
      let target ← readReg a s
      .ok (jumpTo target s))

end Sys2Proof.Machine
end

