-- ==== Sys2Proof/Machine/DataIo.lean ====
section
/-! DEFINITION. HLT, LDI and PRN (spec/41_data_and_io.md). Each meaning runs after the fetch; it reads `s` as the state whose latches
hold the fetched bytes. -/

namespace Sys2Proof.Machine

/-- HLT (R100): halt; `pc` keeps the address of the HLT (decision D12). -/
def execHlt (s : State) : Host.Outcome State Fault Refusal :=
  finish s (.ok (halt s))

/-- LDI (R101): `x[operand_a] <- operand_b`. -/
def execLdi (a imm : Byte) (s : State) : Host.Outcome State Fault Refusal :=
  finish s do
    let t ← writeReg a (immediate imm) s
    .ok (advance .ldi t)

/-- PRN (R102): deliver `x[operand_a]` to the output sink. -/
def execPrn (a : Byte) (s : State) : Host.Outcome State Fault Refusal :=
  finish s do
    let v ← readReg a s
    .ok (advance .prn (emit v s))

end Sys2Proof.Machine
end

