-- ==== Sys2Proof/Machine/Stack.lean ====
section
/-! DEFINITION. PUSH and POP (spec/43_stack.md). -/

namespace Sys2Proof.Machine

/-- PUSH (R122): the register is read, and its index checked, before the push. -/
def execPush (a : Byte) (s : State) : Host.Outcome State Fault Refusal :=
  finish s do
    let v ← readReg a s
    let t ← push v s
    .ok (advance .push t)

/-- POP (R123): the index is checked before the pop (decision D10). -/
def execPop (a : Byte) (s : State) : Host.Outcome State Fault Refusal :=
  finish s do
    checkReg a s
    let (v, t) ← pop s
    let u ← writeReg a v.toNat t
    .ok (advance .pop u)

end Sys2Proof.Machine
end

