-- ==== Sys2Proof/Machine/Step.lean ====
section
/-! DEFINITION. One step of the fetch-decode-execute cycle (spec/40_cycle.md R80 to R85). -/

namespace Sys2Proof.Machine

/-- One step. It is enabled exactly when the run state is Running (R81). A raise in the fetch, the decode or the execution gives a
next state whose run state is Faulted and which keeps none of the step's other changes (R156). -/
def step (s : State) : Host.Outcome State Fault Refusal :=
  match s.run with
  | .halted => .fault (.terminated .halted)
  | .faulted e => .fault (.terminated (.fatal e))
  | .running =>
    match fetch s with
    | .error e => .next (raiseInFetch e s)
    | .ok f => executeFetched exec s f

/-- The state with an instruction's table word stored where `step` fetches its next instruction (log 7). -/
def State.withFetchWord (s : State) (nbits w : Nat) : State := storeFetchBytes nbits w s

end Sys2Proof.Machine
end

