-- ==== Sys2Proof/Machine/Environment.lean ====
section
/-! DEFINITION. The core's interface to its environment: reset with its launch parameters, `load`, the `run()` loop with its
TerminationReason, and the output sink (spec/40_cycle.md R87 to R98; spec/60_exceptions.md R154, R158; spec/70_reset_and_hazards.md
R180 to R183). -/

namespace Sys2Proof.Machine

/-- Reset with the launch parameters `REG_INIT` and `MEM_INIT` (R180, decisions D6 and D7). It takes nothing from an earlier run
(10_state.md R34). -/
def launch (regInit : Vector Byte 8) (memInit : Memory) : State :=
  { State.reset with regs := regInit, mem := memInit }

/-- How a `load` fails: an address outside 0 to 255 (R95, decision D8). -/
inductive LoadFailure where
  | addressOutOfRange (addr : Int)
  deriving DecidableEq, Repr

/-- Write `bytes` at `start`, `start + 1`, …; fail at the first address out of range. -/
def Memory.load : List Byte → Int → Memory → Except LoadFailure Memory
  | [], _, m => .ok m
  | b :: bytes, start, m =>
    if inMemory start then Memory.load bytes (start + 1) (m.set start.toNat b)
    else .error (.addressOutOfRange start)

/-- `load(bytes, start_address)` (R95): it changes only memory, and a failing load writes nothing, so that no run starts from it. -/
def load (bytes : List Byte) (start : Int) (s : State) : Except LoadFailure State :=
  match Memory.load bytes start s.mem with
  | .ok m => .ok { s with mem := m }
  | .error e => .error e

/-- The order of a run up to `run()`: reset, then `load(bytes, 0)` (R183). -/
def boot (regInit : Vector Byte 8) (memInit : Memory) (bytes : List Byte) : Except LoadFailure State :=
  load bytes 0 (launch regInit memInit)

/-- The TerminationReason of a run state, none while Running (R158). -/
def RunState.reason : RunState → Option TerminationReason
  | .running => none
  | .halted => some .halted
  | .faulted e => some (.fatal e)

/-- `run()` (R87, R89) under fuel: at most `fuel` steps. It answers the TerminationReason and the final state (R97, decision D27), and
nothing when the run has not ended (R88, log 22). -/
def runFor : Nat → State → Option (TerminationReason × State)
  | 0, s =>
    match s.run.reason with
    | some r => some (r, s)
    | none => none
  | fuel + 1, s =>
    match s.run.reason with
    | some r => some (r, s)
    | none =>
      match step s with
      | .next t => runFor fuel t
      | .fault _ => none
      | .refused _ => none

/-- The spec's own numbers for the reasons (R154, decision D11); no program sees them. -/
def TerminationReason.code : TerminationReason → Nat
  | .halted => 0
  | .fatal (.unknownOpcode _ _) => 1
  | .fatal (.addressOutOfRange _ _ _ _) => 2
  | .fatal .unsupportedAluOperation => 3

/-- What the output sink has printed: each value in decimal, in program order (R98). -/
def sinkText (s : State) : List String := s.output.map fun v => toString v.toNat

end Sys2Proof.Machine
end

