-- ==== Sys2Proof/Machine/Loader.lean ====
section
/-! DEFINITION. The program loader as far as the spec gives it: the text form of 30_encoding.md R74 and the three failures of
40_cycle.md R96. It is an external collaborator of the core (00_scope.md R5). -/

namespace Sys2Proof.Machine

/-- The loader's own failures (R96). -/
inductive LoaderFailure where
  | programFileNotFound
  | invalidInstructionLiteral
  | emptyProgram
  deriving DecidableEq, Repr

/-- The failure code of each (R96, decision D25): free, distinct numbers (log 20). -/
def LoaderFailure.code : LoaderFailure → Nat
  | .programFileNotFound => Config.loadFailCodes.programFileNotFound
  | .invalidInstructionLiteral => Config.loadFailCodes.invalidInstructionLiteral
  | .emptyProgram => Config.loadFailCodes.emptyProgram

/-- A line without its leading spaces. DESIGN CHOICE (log 19): R74 says only "first non-space character"; here a tab counts as a space,
before a `#` as before a literal and on a blank line, and no other character does. -/
def trimLeft : List Char → List Char
  | [] => []
  | c :: line => if c = ' ' || c = '\t' then trimLeft line else c :: line

/-- The value of binary digits, most significant first (00_scope.md R9), on top of `acc`; none if one is neither 0 nor 1. -/
def binaryValue : Nat → List Char → Option Nat
  | acc, [] => some acc
  | acc, c :: digits =>
    if c = '0' then binaryValue (2 * acc) digits
    else if c = '1' then binaryValue (2 * acc + 1) digits
    else none

/-- What a line of program text holds. -/
inductive Line where
  | skipped
  | byte (b : Byte)
  | invalid
  deriving DecidableEq, Repr

/-- One line (R74): blank lines and lines whose first non-space character is `#` are skipped; otherwise 8 binary characters, and
whatever follows them is ignored. DESIGN CHOICE (log 19): spaces before the literal are skipped, and what follows may be a ninth
digit or text with no space before it. -/
def readLine (line : List Char) : Line :=
  match trimLeft line with
  | [] => .skipped
  | c :: rest =>
    if c = '#' then .skipped
    else if ((c :: rest).take 8).length < 8 then .invalid
    else
      match binaryValue 0 ((c :: rest).take 8) with
      | none => .invalid
      | some v => .byte (BitVec.ofNat 8 v)

/-- The program bytes of a text's lines, in file order (R74). -/
def readLines : List (List Char) → Except LoaderFailure (List Byte)
  | [] => .ok []
  | line :: lines =>
    match readLine line with
    | .skipped => readLines lines
    | .invalid => .error .invalidInstructionLiteral
    | .byte b =>
      match readLines lines with
      | .ok bytes => .ok (b :: bytes)
      | .error e => .error e

/-- The loader on a file's lines, or on no file (R96). DESIGN CHOICE (log 19): an invalid line decides, byte or no byte. -/
def readProgram : Option (List (List Char)) → Except LoaderFailure (List Byte)
  | none => .error .programFileNotFound
  | some lines =>
    match readLines lines with
    | .ok [] => .error .emptyProgram
    | .ok (b :: bytes) => .ok (b :: bytes)
    | .error e => .error e

/-- Why `run()` is not invoked (R96, R183): a failure of the loader or of the load. -/
inductive StartFailure where
  | loader (e : LoaderFailure)
  | load (e : LoadFailure)
  deriving DecidableEq, Repr

/-- From a program text to the state `run()` starts in: loader, reset, `load(bytes, 0)` (R183). -/
def start (regInit : Vector Byte 8) (memInit : Memory) (text : Option (List (List Char))) : Except StartFailure State :=
  match readProgram text with
  | .error e => .error (.loader e)
  | .ok bytes =>
    match boot regInit memInit bytes with
    | .ok s => .ok s
    | .error e => .error (.load e)

end Sys2Proof.Machine
end

