-- ==== Sys2Proof/WellFormed.lean ====
section
/-! DEFINITION. Well-formedness: the instructions that the assembler syntax of 30_encoding.md R72 can write. A register operand is
written `Rn` with n in 0 to 7 (00_scope.md R12), so each register operand must name a register; an immediate is any byte.
Every `Instr` is encodable, well-formed or not: an ill-formed one is the machine's business (R22), and no statement about encoding
or stepping assumes well-formedness (log 23). -/

namespace Sys2Proof

/-- The operand byte names a register: its index is 0 to 7 (10_state.md R22). -/
def Byte.namesReg (i : Byte) : Bool := decide (i.toNat < Config.regCount)

/-- Every register operand names a register. -/
def Instr.wf : Instr → Bool
  | .hlt => true
  | .ldi a _ => a.namesReg
  | .prn a => a.namesReg
  | .mul a b => a.namesReg && b.namesReg
  | .add a b => a.namesReg && b.namesReg
  | .cmp a b => a.namesReg && b.namesReg
  | .push a => a.namesReg
  | .pop a => a.namesReg
  | .call a => a.namesReg
  | .ret => true
  | .jmp a => a.namesReg
  | .jeq a => a.namesReg
  | .jne a => a.namesReg

end Sys2Proof
end

