-- ==== Sys2Proof/Safety.lean ====
section
/-! DEFINITION. The terms claims use: the invariant of every run, what a safe step is, and, written from the spec's tables, the
registers, errors and `pc` each instruction promises. -/

namespace Sys2Proof.Machine

/-- The invariant of every run: memory in canonical form; `pc` and `sp` in 0 to 256 (10_state.md R24, R25); FL is 0x00, 0x01, 0x02 or
0x04 (R26); no run ended by UnsupportedAluOperation (60_exceptions.md R153). -/
structure Inv (s : State) : Prop where
  mem_wf : s.mem.wf = true
  pc_le : s.pc.toNat ≤ 256
  sp_le : s.sp.toNat ≤ 256
  fl_legal : s.fl = 0x00 ∨ s.fl = 0x01 ∨ s.fl = 0x02 ∨ s.fl = 0x04
  run_supported : s.run ≠ .faulted .unsupportedAluOperation

/-- A safe state of a run: the run goes on or has ended by HLT, and has met no fatal error. -/
def State.safe (s : State) : Prop := ∀ e, s.run ≠ .faulted e

/-- The byte at address `a`, as a claim reads memory. -/
def State.byteAt (s : State) (a : Nat) : Byte := s.mem.get a

/-- The fetch of R82 is in range: `pc`, `pc + 1` and `pc + 2` are addresses. -/
abbrev State.fetchable (s : State) : Prop := s.pc.toNat ≤ 253

/-- The state with the three fetched bytes in its latches (10_state.md R31). -/
def State.latched (s : State) : State :=
  { s with ir := s.byteAt s.pc.toNat, operandA := s.byteAt (s.pc.toNat + 1), operandB := s.byteAt (s.pc.toNat + 2) }

/-- What the decoder reads at `pc`. -/
def State.current (s : State) : Except Reject Instr :=
  decode (s.byteAt s.pc.toNat) (s.byteAt (s.pc.toNat + 1)) (s.byteAt (s.pc.toNat + 2))

/-- `s` ended by AddressOutOfRange(register, i), nothing else changed (60_exceptions.md R152, R156). -/
def State.badRegister (s : State) (i : Byte) : State :=
  { s with run := .faulted (.addressOutOfRange .register (i.toNat : Int) s.pc s.ir) }

/-- `s` ended by AddressOutOfRange(memory, addr), nothing else changed (60_exceptions.md R152, R156). -/
def State.badAddress (s : State) (addr : Int) : State :=
  { s with run := .faulted (.addressOutOfRange .memory addr s.pc s.ir) }

/-- The 13 opcode bytes of 30_encoding.md R65, in hexadecimal as the rule's table gives them. -/
def legalOpcodes : List Byte := [0x01, 0x82, 0x47, 0xA2, 0xA0, 0xA7, 0x45, 0x46, 0x50, 0x11, 0x54, 0x55, 0x56]

end Sys2Proof.Machine

namespace Sys2Proof

open Machine

/-- The register an instruction writes, if any (10_state.md R20: LDI, MUL, ADD, POP). -/
def Instr.destination : Instr → Option Byte
  | .hlt => none
  | .ldi a _ => some a
  | .prn _ => none
  | .mul a _ => some a
  | .add a _ => some a
  | .cmp _ _ => none
  | .push _ => none
  | .pop a => some a
  | .call _ => none
  | .ret => none
  | .jmp _ => none
  | .jeq _ => none
  | .jne _ => none

/-- The register operands an instruction uses in state `s`, in the order they are checked (R155, R157). -/
def Instr.usedRegs (i : Instr) (s : State) : List Byte :=
  match i with
  | .hlt => []
  | .ldi a _ => [a]
  | .prn a => [a]
  | .mul a b => [a, b]
  | .add a b => [a, b]
  | .cmp a b => [a, b]
  | .push a => [a]
  | .pop a => [a]
  | .call a => [a]
  | .ret => []
  | .jmp a => [a]
  | .jeq a => if s.fl[0] then [a] else []
  | .jne a => if s.fl[0] then [] else [a]

/-- The address of the instruction's own memory access in state `s`: the push of PUSH and CALL, the pop of POP and RET (R155). -/
def Instr.accessed (i : Instr) (s : State) : Option Int :=
  match i with
  | .hlt => none
  | .ldi _ _ => none
  | .prn _ => none
  | .mul _ _ => none
  | .add _ _ => none
  | .cmp _ _ => none
  | .push _ => some ((s.sp.toNat : Int) - 1)
  | .pop _ => some (s.sp.toNat : Int)
  | .call _ => some ((s.sp.toNat : Int) - 1)
  | .ret => some (s.sp.toNat : Int)
  | .jmp _ => none
  | .jeq _ => none
  | .jne _ => none

/-- The error an instruction's execution raises in state `s`, read off the table of R155 in the order of R157: the first used register
index above 7, else the access outside 0 to 255. -/
def Instr.errorIn (i : Instr) (s : State) : Option FatalError :=
  match (i.usedRegs s).find? fun r => decide (7 < r.toNat) with
  | some r => some (.addressOutOfRange .register (r.toNat : Int) s.pc s.ir)
  | none =>
    match i.accessed s with
    | none => none
    | some addr => if 0 ≤ addr ∧ addr ≤ 255 then none else some (.addressOutOfRange .memory addr s.pc s.ir)

end Sys2Proof
end

