-- ==== Sys2Proof/Certificates/Slice0/Obligations.lean ====
section
/-! DEFINITION. The statements for the provers. In each, "D<n>" names a decision of spec/92_eei_decisions.md and "log n" a row of
notes/assumptions: a clause that rests on one is the spec's own choice, or the model's, and no statement of the source. -/

open Sys2Proof Sys2Proof.Machine

/-! ### Encoding -/

/-- Decoding an encoded instruction gives it back, for every instruction with every operand value, whatever two bytes follow it in
memory (spec/30_encoding.md sections 1 and 2; the unused operand bytes have no effect, R62). -/
def Obligations.DecodeAfterEncodeIsIdentity : Prop :=
  ∀ (i : Instr) (x y : Byte), ∃ (ir a b : Byte) (rest : List Byte),
    encode i ++ [x, y] = ir :: a :: b :: rest ∧ decode ir a b = .ok i

/-- Only an instruction's own encoding decodes to it: what decodes to `i` begins with the bytes that encode `i`, and `i.length` of
them (spec/30_encoding.md sections 1 and 3). -/
def Obligations.DecodedBytesBeginWithTheEncoding : Prop :=
  ∀ (ir a b : Byte) (i : Instr), decode ir a b = .ok i →
    encode i <+: [ir, a, b] ∧ (encode i).length = i.length

/-- R64: a byte selects an instruction exactly when all its 8 bits equal one of the 13 opcodes, and which one depends on the opcode byte
alone. -/
def Obligations.DecodeComparesTheWholeOpcodeByte : Prop :=
  ∀ ir a b : Byte,
    ((∃ i, decode ir a b = .ok i) ↔ ir ∈ legalOpcodes) ∧
    (∀ i, decode ir a b = .ok i → i.opcode = ir) ∧
    (ir ∉ legalOpcodes → decode ir a b = .error (.unknownOpcode ir)) ∧
    (∀ (a' b' : Byte) (i j : Instr), decode ir a b = .ok i → decode ir a' b' = .ok j → i.op = j.op)

/-- Words written out from the encodings of spec/30_encoding.md, at least one per family, decode to the instructions they stand for. -/
def Obligations.WrittenOutWordsDecode : Prop :=
  decode 0b10000010 0b00000000 0b00001000 = .ok (.ldi 0 8) ∧
  decode 0b01000111 0b00000000 0b00000001 = .ok (.prn 0) ∧
  decode 0b00000001 0b11111111 0b00010001 = .ok .hlt ∧
  decode 0b10100000 0b00000010 0b00000101 = .ok (.add 2 5) ∧
  decode 0b10100111 0b00000001 0b11001000 = .ok (.cmp 1 200) ∧
  decode 0b01000110 0b00000011 0b00000000 = .ok (.pop 3) ∧
  decode 0b01010110 0b00000101 0b01000111 = .ok (.jne 5) ∧
  decode 0b10100001 0b00000000 0b00000000 = .error (.unknownOpcode 0xA1)

/-- The pattern the 13 opcodes share, which the spec records as derived (R67): bits 7:6 are the number of operand bytes, bit 5 marks
the ALU instructions, bit 4 those that set `pc` by assignment. -/
def Obligations.OpcodeBitPattern : Prop :=
  ∀ i : Instr,
    (i.opcode.toNat / 64 + 1 = (encode i).length) ∧
    (i.opcode[5] = true ↔ i.op ∈ [Op.mul, Op.add, Op.cmp]) ∧
    (i.opcode[4] = true ↔ i.op ∈ [Op.call, Op.ret, Op.jmp, Op.jeq, Op.jne])

/-- Operand bytes an instruction does not use do not matter (spec/30_encoding.md section 2, with R62's reading). -/
def Obligations.UnusedOperandBytesDoNotMatter : Prop :=
  ∀ (ir a b a' b' : Byte) (i : Instr), decode ir a b = .ok i →
    (2 ≤ i.length → a' = a) → (3 ≤ i.length → b' = b) → decode ir a' b' = .ok i

/-! ### The step -/

/-- A step runs the decoded instruction: when the three fetch addresses are in range and the bytes at `pc` decode to `i`, the step is
the execution of `i` in the same state with the fetched bytes in the latches, or, when that raises, the state before the step with
the error taken (spec/40_cycle.md section 1; D5; log 6 for the latches). -/
def Obligations.StepRunsTheDecodedInstruction : Prop :=
  ∀ (s : State) (i : Instr), s.run = .running → s.fetchable → s.current = .ok i →
    ∃ u, exec i s.latched = .next u ∧
      (u.safe → step s = .next u) ∧
      (∀ e, u.run = .faulted e → step s = .next { s with run := .faulted e })

/-- A legal opcode byte maps to one handler, its row's; an illegal one raises UnknownOpcode with `pc` and the byte, and executes nothing
(R83). That the step keeps nothing else is D5, and that the latches too have their old values back is the model's reading of it
(log 6). -/
def Obligations.IllegalOpcodeRaisesUnknownOpcode : Prop :=
  ∀ s : State, s.run = .running → s.fetchable →
    (s.byteAt s.pc.toNat ∈ legalOpcodes → ∃ i, s.current = .ok i ∧ i.opcode = s.byteAt s.pc.toNat) ∧
    (s.byteAt s.pc.toNat ∉ legalOpcodes →
      step s = .next { s with run := .faulted (.unknownOpcode s.pc (s.byteAt s.pc.toNat)) })

/-- A fetch at 254, 255 or 256 raises AddressOutOfRange(memory, 256) whatever stands there; the record holds the opcode byte where it was
read, and a value the statement leaves open where it was not (D3, D5; log 4). -/
def Obligations.FetchAtTheTopOfMemoryFaults : Prop :=
  ∀ s : State, s.run = .running → 254 ≤ s.pc.toNat → s.pc.toNat ≤ 256 →
    ∃ (ir : Byte) (draws : Nat),
      step s = .next { s with run := .faulted (.addressOutOfRange .memory 256 s.pc ir), draws := draws } ∧
      (s.pc.toNat ≤ 255 → ir = s.byteAt s.pc.toNat ∧ draws = s.draws)

/-- R81: a step is enabled exactly when the run state is Running; in Halted and in Faulted no step is enabled. -/
def Obligations.StepIsEnabledExactlyWhenRunning : Prop :=
  ∀ s : State, (∃ t, step s = .next t) ↔ s.run = .running

/-- A Halted or Faulted core stops with the reason its run ended for, and a run of it answers that reason in the same state and takes no
step (D12; that the step stops by a fault is log 5, the fuel is log 22). -/
def Obligations.TerminatedCoreKeepsItsReason : Prop :=
  ∀ (s : State) (k : Nat),
    (s.run = .halted → step s = .fault (.terminated .halted) ∧ runFor k s = some (.halted, s)) ∧
    (∀ e, s.run = .faulted e → step s = .fault (.terminated (.fatal e)) ∧ runFor k s = some (.fatal e, s))

/-- Errors are precise (D5): a step that ends in Faulted changed the run state and nothing else of the spec's state. -/
def Obligations.FaultingStepKeepsNoOtherChange : Prop :=
  ∀ (s t : State) (e : FatalError), step s = .next t → t.run = .faulted e →
    ∃ draws, t = { s with run := .faulted e, draws := draws }

/-- Halted is entered by HLT and by nothing else: a step ends in Halted exactly when its fetch is in range and it fetched 0x01
(spec/10_state.md section 5; conflict C8, D26). -/
def Obligations.HaltedIsEnteredOnlyByHlt : Prop :=
  ∀ s t : State, step s = .next t →
    (t.run = .halted ↔ s.fetchable ∧ s.byteAt s.pc.toNat = 0x01)

/-- Which instruction raises which error, and which one first: the table of R155 (spec's own derivation) in the order of R157 (D10).
Where the table gives none, the execution completes; where it gives one, it is raised and nothing else changes (D5). -/
def Obligations.ExecutionErrorsMatchTheTable : Prop :=
  ∀ (i : Instr) (s : State), s.run = .running →
    (∀ e, i.errorIn s = some e → exec i s = .next { s with run := .faulted e }) ∧
    (i.errorIn s = none → ∃ t, exec i s = .next t ∧ t.safe)

/-- The only out-of-range values that arise in a run (spec's derivation in R42): memory addresses -1 and 256, register indices 8 to 255; and
the record's `pc` is the instruction's. The premise is the invariant `Inv`. -/
def Obligations.OutOfRangeValuesThatArise : Prop :=
  ∀ (s t : State) (space : Space) (v : Int) (pc : Ptr) (ir : Byte), Inv s → step s = .next t →
    t.run = .faulted (.addressOutOfRange space v pc ir) →
    pc = s.pc ∧ (space = .memory → v = -1 ∨ v = 256) ∧ (space = .register → 8 ≤ v ∧ v ≤ 255)

/-- The ALU invoked with another operation than ADD, MUL and CMP answers UnsupportedAluOperation, whatever the registers (spec/40_cycle.md
section 1; the type of the operation code is log 21). -/
def Obligations.AluRejectsOtherOperations : Prop :=
  ∀ (op : Op) (a b : Byte) (s : State), op ∉ [Op.add, Op.mul, Op.cmp] → alu op a b s = .error .unsupportedAluOperation

/-- With a register operand that exists and room on the stack, every instruction's step completes: it goes on or halts, with no error. -/
def Obligations.WellFormedInstructionStepCompletes : Prop :=
  ∀ (s : State) (i : Instr), s.run = .running → s.fetchable → s.current = .ok i → i.wf = true →
    1 ≤ s.sp.toNat → s.sp.toNat ≤ 255 → ∃ t, step s = .next t ∧ t.safe

/-! ### HLT, LDI, PRN -/

/-- HLT halts, and `pc` keeps the address of the HLT (D12); nothing else changes. -/
def Obligations.HltHaltsInPlace : Prop :=
  encode .hlt = [0x01] ∧ ∀ s : State, exec .hlt s = .next { s with run := .halted }

/-- R101: LDI writes the immediate to its register and advances `pc` by 3; an index above 7 raises, and nothing else changes (R101 takes
this from R156, D5). -/
def Obligations.LdiLoadsTheImmediate : Prop :=
  ∀ (a imm : Byte) (s : State),
    encode (.ldi a imm) = [0x82, a, imm] ∧
    (a.toNat ≤ 7 → ∃ rs : Vector Byte 8,
      exec (.ldi a imm) s = .next { s with regs := rs, pc := s.pc + 3 } ∧
      ∀ r : Fin 8, rs[r] = if r.val = a.toNat then imm else s.regs[r]) ∧
    (7 < a.toNat → exec (.ldi a imm) s = .next (s.badRegister a))

/-- R102: PRN delivers its register's value as one more output event and advances `pc` by 2; an index above 7 raises and emits nothing
(R102 takes this from R156, D5). -/
def Obligations.PrnDeliversTheRegister : Prop :=
  ∀ (a : Byte) (s : State),
    encode (.prn a) = [0x47, a] ∧
    (∀ x : Fin 8, a.toNat = x.val →
      exec (.prn a) s = .next { s with output := s.output ++ [s.regs[x]], pc := s.pc + 2 }) ∧
    (7 < a.toNat → exec (.prn a) s = .next (s.badRegister a))

/-! ### MUL, ADD, CMP -/

/-- R110: MUL writes the product mod 256 to register a and advances `pc` by 3; the first of its indices above 7 raises. That the write is
masked is the document's and D1, the order of the checks D10. -/
def Obligations.MulWritesTheProductMod256 : Prop :=
  ∀ (a b : Byte) (s : State),
    encode (.mul a b) = [0xA2, a, b] ∧
    (∀ x y : Fin 8, a.toNat = x.val → b.toNat = y.val → ∃ rs : Vector Byte 8,
      exec (.mul a b) s = .next { s with regs := rs, pc := s.pc + 3 } ∧
      rs[x].toNat = s.regs[x].toNat * s.regs[y].toNat % 256 ∧
      ∀ r : Fin 8, r ≠ x → rs[r] = s.regs[r]) ∧
    (7 < a.toNat → exec (.mul a b) s = .next (s.badRegister a)) ∧
    (a.toNat ≤ 7 → 7 < b.toNat → exec (.mul a b) s = .next (s.badRegister b))

/-- R111: ADD writes the sum mod 256 to register a and advances `pc` by 3; the first of its indices above 7 raises. That the write is
masked is the document's and D1, the order of the checks D10. -/
def Obligations.AddWritesTheSumMod256 : Prop :=
  ∀ (a b : Byte) (s : State),
    encode (.add a b) = [0xA0, a, b] ∧
    (∀ x y : Fin 8, a.toNat = x.val → b.toNat = y.val → ∃ rs : Vector Byte 8,
      exec (.add a b) s = .next { s with regs := rs, pc := s.pc + 3 } ∧
      rs[x].toNat = (s.regs[x].toNat + s.regs[y].toNat) % 256 ∧
      ∀ r : Fin 8, r ≠ x → rs[r] = s.regs[r]) ∧
    (7 < a.toNat → exec (.add a b) s = .next (s.badRegister a)) ∧
    (a.toNat ≤ 7 → 7 < b.toNat → exec (.add a b) s = .next (s.badRegister b))

/-- CMP sets FL to 0x01, 0x04 or 0x02 as the register values compare as unsigned numbers (D21), whatever FL was, and advances `pc` by 3;
the first of its indices above 7 raises, and FL is kept. -/
def Obligations.CmpSetsExactlyOneFlag : Prop :=
  ∀ (a b : Byte) (s : State),
    encode (.cmp a b) = [0xA7, a, b] ∧
    (∀ x y : Fin 8, a.toNat = x.val → b.toNat = y.val → ∃ fl : Byte,
      exec (.cmp a b) s = .next { s with fl := fl, pc := s.pc + 3 } ∧
      (s.regs[x].toNat = s.regs[y].toNat → fl = 0x01) ∧
      (s.regs[x].toNat < s.regs[y].toNat → fl = 0x04) ∧
      (s.regs[y].toNat < s.regs[x].toNat → fl = 0x02)) ∧
    (7 < a.toNat → exec (.cmp a b) s = .next (s.badRegister a)) ∧
    (a.toNat ≤ 7 → 7 < b.toNat → exec (.cmp a b) s = .next (s.badRegister b))

/-! ### PUSH, POP -/

/-- R122: PUSH stores its register at `sp - 1`, lowers `sp` to it and advances `pc` by 2; an index above 7 raises first, then a push with
no room (the order is D10). Every other byte of memory reads as before. -/
def Obligations.PushStoresBelowTheStackPointer : Prop :=
  ∀ (a : Byte) (s : State),
    encode (.push a) = [0x45, a] ∧
    (∀ x : Fin 8, a.toNat = x.val → 1 ≤ s.sp.toNat → s.sp.toNat ≤ 256 → ∃ m : Memory,
      exec (.push a) s = .next { s with mem := m, sp := s.sp - 1, pc := s.pc + 2 } ∧
      m.get (s.sp.toNat - 1) = s.regs[x] ∧
      ∀ k : Nat, k ≠ s.sp.toNat - 1 → m.get k = s.mem.get k) ∧
    (7 < a.toNat → exec (.push a) s = .next (s.badRegister a)) ∧
    (a.toNat ≤ 7 → s.sp.toNat = 0 ∨ 256 < s.sp.toNat → exec (.push a) s = .next (s.badAddress ((s.sp.toNat : Int) - 1)))

/-- POP writes the byte at `sp` to its register, raises `sp` and advances `pc` by 2, and changes no memory; an index above 7 raises before
the pop (D10), then a pop past 255. -/
def Obligations.PopLoadsTheTopOfStack : Prop :=
  ∀ (a : Byte) (s : State),
    encode (.pop a) = [0x46, a] ∧
    (∀ x : Fin 8, a.toNat = x.val → s.sp.toNat ≤ 255 → ∃ rs : Vector Byte 8,
      exec (.pop a) s = .next { s with regs := rs, sp := s.sp + 1, pc := s.pc + 2 } ∧
      rs[x] = s.mem.get s.sp.toNat ∧
      ∀ r : Fin 8, r ≠ x → rs[r] = s.regs[r]) ∧
    (7 < a.toNat → exec (.pop a) s = .next (s.badRegister a)) ∧
    (a.toNat ≤ 7 → 255 < s.sp.toNat → exec (.pop a) s = .next (s.badAddress (s.sp.toNat : Int)))

/-! ### CALL, RET, JMP, JEQ, JNE -/

/-- CALL stores the address after itself at `sp - 1`, lowers `sp` to it and goes to its register's value; an index above 7 raises first,
then a push with no room. That the pushed byte is `pc + 2` itself is for a `pc` whose fetch is in range (the spec's derivation in
R130); what is pushed elsewhere is log 9 and not stated. -/
def Obligations.CallPushesTheReturnAddressAndJumps : Prop :=
  ∀ (a : Byte) (s : State),
    encode (.call a) = [0x50, a] ∧
    (∀ x : Fin 8, a.toNat = x.val → 1 ≤ s.sp.toNat → s.sp.toNat ≤ 256 → ∃ m : Memory,
      exec (.call a) s = .next { s with mem := m, sp := s.sp - 1, pc := s.regs[x].setWidth 9 } ∧
      (s.fetchable → (m.get (s.sp.toNat - 1)).toNat = s.pc.toNat + 2) ∧
      ∀ k : Nat, k ≠ s.sp.toNat - 1 → m.get k = s.mem.get k) ∧
    (7 < a.toNat → exec (.call a) s = .next (s.badRegister a)) ∧
    (a.toNat ≤ 7 → s.sp.toNat = 0 ∨ 256 < s.sp.toNat → exec (.call a) s = .next (s.badAddress ((s.sp.toNat : Int) - 1)))

/-- R131: RET goes to the byte at `sp`, whoever pushed it, and raises `sp`; a pop past 255 raises. -/
def Obligations.RetJumpsToThePoppedByte : Prop :=
  encode .ret = [0x11] ∧
  ∀ s : State,
    (s.sp.toNat ≤ 255 → exec .ret s = .next { s with sp := s.sp + 1, pc := (s.mem.get s.sp.toNat).setWidth 9 }) ∧
    (255 < s.sp.toNat → exec .ret s = .next (s.badAddress (s.sp.toNat : Int)))

/-- JMP goes to its register's value, 0 to 255, with no check of the target; an index above 7 raises (spec/44_control_flow.md). -/
def Obligations.JmpGoesToTheRegister : Prop :=
  ∀ (a : Byte) (s : State),
    encode (.jmp a) = [0x54, a] ∧
    (∀ x : Fin 8, a.toNat = x.val → ∃ p : Ptr, exec (.jmp a) s = .next { s with pc := p } ∧ p.toNat = s.regs[x].toNat) ∧
    (7 < a.toNat → exec (.jmp a) s = .next (s.badRegister a))

/-- JEQ goes to its register's value when bit 0 of FL is 1, and advances `pc` by 2 otherwise, then whatever its operand is, for the index
is checked only when the jump is taken (D9). -/
def Obligations.JeqBranchesWhenEqual : Prop :=
  ∀ (a : Byte) (s : State),
    encode (.jeq a) = [0x55, a] ∧
    (∀ x : Fin 8, a.toNat = x.val → s.fl[0] = true →
      ∃ p : Ptr, exec (.jeq a) s = .next { s with pc := p } ∧ p.toNat = s.regs[x].toNat) ∧
    (7 < a.toNat → s.fl[0] = true → exec (.jeq a) s = .next (s.badRegister a)) ∧
    (s.fl[0] = false → exec (.jeq a) s = .next { s with pc := s.pc + 2 })

/-- JNE goes to its register's value when bit 0 of FL is 0, and advances `pc` by 2 otherwise, then whatever its operand is, for the index
is checked only when the jump is taken (D9). -/
def Obligations.JneBranchesWhenNotEqual : Prop :=
  ∀ (a : Byte) (s : State),
    encode (.jne a) = [0x56, a] ∧
    (∀ x : Fin 8, a.toNat = x.val → s.fl[0] = false →
      ∃ p : Ptr, exec (.jne a) s = .next { s with pc := p } ∧ p.toNat = s.regs[x].toNat) ∧
    (7 < a.toNat → s.fl[0] = false → exec (.jne a) s = .next (s.badRegister a)) ∧
    (s.fl[0] = true → exec (.jne a) s = .next { s with pc := s.pc + 2 })

/-! ### Frames and whole-machine rules -/

/-- Every register but an instruction's destination is unchanged; the destinations are those of LDI, MUL, ADD and POP (spec/10_state.md
section 1). -/
def Obligations.OnlyTheDestinationRegisterChanges : Prop :=
  ∀ (i : Instr) (s t : State), exec i s = .next t →
    ∀ r : Fin 8, (∀ d, i.destination = some d → d.toNat ≠ r.val) → t.regs[r] = s.regs[r]

/-- Every byte of memory is unchanged but the one PUSH or CALL stores to, `sp - 1` (spec/20_memory.md section 1). -/
def Obligations.OnlyPushedBytesChangeMemory : Prop :=
  ∀ (i : Instr) (s t : State), exec i s = .next t →
    ∀ k : Nat, (i.op = .push ∨ i.op = .call → (k : Int) ≠ (s.sp.toNat : Int) - 1) → t.mem.get k = s.mem.get k

/-- FL changes only in a step that fetched CMP's opcode, and is then 0x01, 0x02 or 0x04 (spec/10_state.md section 4). -/
def Obligations.FlagsChangeOnlyByCmp : Prop :=
  ∀ s t : State, step s = .next t → t.fl ≠ s.fl →
    s.fetchable ∧ s.byteAt s.pc.toNat = 0xA7 ∧ (t.fl = 0x01 ∨ t.fl = 0x02 ∨ t.fl = 0x04)

/-- `sp` moves only by one, down in a step that fetched PUSH or CALL, up in one that fetched POP or RET (spec/10_state.md section 3). -/
def Obligations.StackPointerMovesOnlyByPushAndPop : Prop :=
  ∀ s t : State, step s = .next t → t.sp ≠ s.sp →
    s.fetchable ∧
    (((s.byteAt s.pc.toNat = 0x45 ∨ s.byteAt s.pc.toNat = 0x50) ∧ t.sp.toNat + 1 = s.sp.toNat) ∨
     ((s.byteAt s.pc.toNat = 0x46 ∨ s.byteAt s.pc.toNat = 0x11) ∧ t.sp.toNat = s.sp.toNat + 1))

/-- The output record changes only in a step that fetched PRN's opcode, and then by the value of the register its operand names, at its
end (spec/10_state.md section 6; conflict C11). -/
def Obligations.OutputGrowsOnlyByPrn : Prop :=
  ∀ s t : State, step s = .next t → t.output ≠ s.output →
    s.fetchable ∧ s.byteAt s.pc.toNat = 0x47 ∧
    ∃ x : Fin 8, (s.byteAt (s.pc.toNat + 1)).toNat = x.val ∧ t.output = s.output ++ [s.regs[x]]

/-- `pc` does not wrap: a completed step of an instruction that neither halts nor assigns `pc` leaves `pc` at its address plus its length,
up to 256 (spec/10_state.md section 2). -/
def Obligations.SequentialAdvanceDoesNotWrap : Prop :=
  ∀ (s t : State) (i : Instr), step s = .next t → s.fetchable → s.current = .ok i → t.safe →
    i.op ∉ [Op.hlt, Op.call, Op.ret, Op.jmp, Op.jeq, Op.jne] →
    t.pc.toNat = s.pc.toNat + i.length ∧ t.pc.toNat ≤ 256

/-- Nothing reads L, G or the bits above: two states that differ only in FL and agree on E make the same step but for FL, and agree on E
after it (spec/44_control_flow.md section 1). -/
def Obligations.OnlyTheEqualFlagIsRead : Prop :=
  ∀ (s t : State) (fl : Byte), fl[0] = s.fl[0] → step s = .next t →
    ∃ fl' : Byte, step { s with fl := fl } = .next { t with fl := fl' } ∧ fl'[0] = t.fl[0]

/-- A PUSH followed by a POP moves the value and gives `sp` back, whenever `sp` was 1 to 256 (spec/43_stack.md section 2). -/
def Obligations.PopAfterPushGivesTheValueBack : Prop :=
  ∀ (a b : Byte) (x y : Fin 8) (s : State), a.toNat = x.val → b.toNat = y.val → 1 ≤ s.sp.toNat → s.sp.toNat ≤ 256 →
    ∃ t u, exec (.push a) s = .next t ∧ exec (.pop b) t = .next u ∧ u.regs[y] = s.regs[x] ∧ u.sp = s.sp

/-- A CALL and a RET in any later state with the same `sp` and the same byte there resume at the address after the CALL, with the `sp` of
before the CALL (spec/44_control_flow.md section 2). -/
def Obligations.RetAfterCallResumesAfterTheCall : Prop :=
  ∀ (a : Byte) (x : Fin 8) (s : State), a.toNat = x.val → s.fetchable → 1 ≤ s.sp.toNat → s.sp.toNat ≤ 256 →
    ∃ t, exec (.call a) s = .next t ∧ t.pc.toNat = s.regs[x].toNat ∧
      ∀ u : State, u.sp = t.sp → u.byteAt u.sp.toNat = t.byteAt t.sp.toNat →
        ∃ v, exec .ret u = .next v ∧ v.pc = s.pc + 2 ∧ v.sp = s.sp

/-- A pushed byte is code for a later fetch: after a PUSH that overwrites the byte after itself, what stands at the next `pc` decodes with
the pushed value as its opcode, and the next fetch reads it into `ir` when it is in range, which is for a PUSH at 251 or below
(spec/20_memory.md section 4; D17). After a PUSH at 252 or 253 the next fetch raises before any decode: FetchAtTheTopOfMemoryFaults. -/
def Obligations.NextFetchSeesThePushedByte : Prop :=
  ∀ (s : State) (x : Fin 8), s.run = .running → s.fetchable → s.byteAt s.pc.toNat = 0x45 →
    (s.byteAt (s.pc.toNat + 1)).toNat = x.val → s.sp.toNat = s.pc.toNat + 3 →
    ∃ t, step s = .next t ∧ t.safe ∧ t.pc = s.pc + 2 ∧
      t.current = decode s.regs[x] (s.byteAt (s.pc.toNat + 3)) (s.byteAt (s.pc.toNat + 4)) ∧
      (s.pc.toNat ≤ 251 → fetch t = .ok { t with
        ir := s.regs[x], operandA := s.byteAt (s.pc.toNat + 3), operandB := s.byteAt (s.pc.toNat + 4) })

/-- Two memories in canonical form that read the same at every address are the same data (the model's form of memory, log 2). -/
def Obligations.EqualReadsAreEqualMemories : Prop :=
  ∀ m m' : Memory, m.wf = true → m'.wf = true → (∀ a, m.get a = m'.get a) → m = m'

/-! ### Reset, the invariant and runs -/

/-- After reset, for every `REG_INIT` and `MEM_INIT`: pc 0, sp 0xF4, FL 0, Running, empty output, the registers and the memory as given
(spec/70_reset_and_hazards.md section 1); State.reset is the case of zeros, the model's choice (log 1, log 2). -/
def Obligations.ResetValues : Prop :=
  (∀ (regInit : Vector Byte 8) (memInit : Memory),
    (launch regInit memInit).pc = 0 ∧ (launch regInit memInit).sp = 0xF4 ∧ (launch regInit memInit).fl = 0x00 ∧
    (launch regInit memInit).run = .running ∧ (launch regInit memInit).output = [] ∧
    (∀ r : Fin 8, (launch regInit memInit).regs[r] = regInit[r]) ∧
    (∀ a : Nat, (launch regInit memInit).byteAt a = memInit.get a)) ∧
  State.reset = launch (Vector.replicate 8 0) []

/-- The invariant holds after every reset with a memory in canonical form, and at State.reset. -/
def Obligations.ResetMeetsTheInvariant : Prop :=
  (∀ (regInit : Vector Byte 8) (memInit : Memory), memInit.wf = true → Inv (launch regInit memInit)) ∧ Inv State.reset

/-- Every step keeps the invariant: memory canonical, `pc` and `sp` 0 to 256, FL one of 0x00, 0x01, 0x02 and 0x04, and no run ended by
UnsupportedAluOperation. -/
def Obligations.StepKeepsTheInvariant : Prop :=
  ∀ s t : State, Inv s → step s = .next t → Inv t

/-- `load` writes exactly its bytes, or fails, naming an address out of range, and writes nothing (D8). -/
def Obligations.LoadWritesExactlyItsBytes : Prop :=
  ∀ (bytes : List Byte) (start : Int) (s : State),
    (0 ≤ start → start + bytes.length ≤ 256 → ∃ m : Memory, load bytes start s = .ok { s with mem := m } ∧
      (∀ (k : Nat) (h : k < bytes.length), m.get (start.toNat + k) = bytes[k]) ∧
      ∀ a : Nat, ((a : Int) < start ∨ start + bytes.length ≤ a) → m.get a = s.mem.get a) ∧
    ((∃ k : Nat, k < bytes.length ∧ (start + k < 0 ∨ 255 < start + k)) →
      ∃ addr : Int, load bytes start s = .error (.addressOutOfRange addr) ∧ start ≤ addr ∧ addr < start + bytes.length ∧
        (addr < 0 ∨ 255 < addr))

/-- A completed load keeps the invariant. -/
def Obligations.LoadKeepsTheInvariant : Prop :=
  ∀ (bytes : List Byte) (start : Int) (s t : State), Inv s → load bytes start s = .ok t → Inv t

/-- What a run answers does not depend on the fuel it is given beyond what it needs, and its reason is that of the state it ended in, which
is no longer Running (spec/40_cycle.md section 2; the fuel is log 22). -/
def Obligations.RunAnswerDoesNotDependOnFuel : Prop :=
  ∀ (k n : Nat) (s t : State) (r : TerminationReason), runFor k s = some (r, t) →
    t.run.reason = some r ∧ t.run ≠ .running ∧ runFor (k + n) s = some (r, t)

/-- No program raises UnsupportedAluOperation: no run of any loaded program from any reset ends with it (D16). -/
def Obligations.NoRunEndsInUnsupportedAluOperation : Prop :=
  ∀ (regInit : Vector Byte 8) (memInit : Memory) (bytes : List Byte) (s t : State) (k : Nat) (r : TerminationReason),
    memInit.wf = true → boot regInit memInit bytes = .ok s → runFor k s = some (r, t) →
    r ≠ .fatal .unsupportedAluOperation

/-- A JMP to its own address runs forever: no amount of fuel ends it (spec/40_cycle.md section 2). -/
def Obligations.JmpToItselfNeverEnds : Prop :=
  ∀ (s : State) (x : Fin 8), s.run = .running → s.fetchable → s.byteAt s.pc.toNat = 0x54 →
    (s.byteAt (s.pc.toNat + 1)).toNat = x.val → s.regs[x].toNat = s.pc.toNat → ∀ k, runFor k s = none

/-- An instruction word placed where the step fetches is what the step runs: for a table word that the decoder reads as `i`
(spec/40_cycle.md section 1; log 7 for the placing). -/
def Obligations.PlacedWordIsWhatTheStepRuns : Prop :=
  ∀ (s : State) (nbits w : Nat) (i : Instr), s.run = .running → s.fetchable → decodeTableWord nbits w = some i →
    (s.withFetchWord nbits w).current = .ok i ∧
    step (s.withFetchWord nbits w) = keepIfFaulted (s.withFetchWord nbits w) (exec i (s.withFetchWord nbits w).latched) ∧
    ∀ a : Nat, a < s.pc.toNat ∨ s.pc.toNat + 2 < a → (s.withFetchWord nbits w).byteAt a = s.byteAt a

/-! ### The loader -/

/-- A line that starts with a byte's 8 binary digits, most significant first, is that byte, whatever follows (spec/30_encoding.md
section 5). That what follows may be a ninth digit, or text with no space before it, is the model's choice (log 19). -/
def Obligations.BinaryLiteralLineIsItsByte : Prop :=
  ∀ (b : Byte) (rest : List Char),
    readLine ((List.range 8).map (fun k => if b.getLsbD (7 - k) then '1' else '0') ++ rest) = .byte b

/-- The loader's three failures: no file; a line that is no literal; no byte at all, and then only skipped lines (spec/40_cycle.md section
3). A failing loader gives no state to run, and the three codes differ (D25). The model's choices (log 19, log 20): a file is the list
of its lines and a missing file is none; which lines are literals where the spec's words leave it open; a text with an invalid line
and no byte fails as InvalidInstructionLiteral; the codes are free numbers. -/
def Obligations.LoaderFailuresAreTold : Prop :=
  readProgram none = .error .programFileNotFound ∧
  (∀ lines : List (List Char),
    (readProgram (some lines) = .error .invalidInstructionLiteral ↔ ∃ l ∈ lines, readLine l = .invalid) ∧
    (readProgram (some lines) = .error .emptyProgram ↔ ∀ l ∈ lines, readLine l = .skipped)) ∧
  (∀ (regInit : Vector Byte 8) (memInit : Memory) (text : Option (List (List Char))) (e : LoaderFailure),
    readProgram text = .error e → start regInit memInit text = .error (.loader e)) ∧
  (∀ e e' : LoaderFailure, e.code = e'.code → e = e')
end

