-- ==== Sys2Proof/Laws/Decode.lean ====
section
/-! SUPPORT. The laws of the opcode table (30_encoding.md R64, R65): each row is found under its own opcode, and under no other. -/

namespace Sys2Proof

@[simp] theorem lookupOpcode_opcode (op : Op) : lookupOpcode op.opcode = some op := by
  cases op <;> rfl

/-- A lookup that finds a row compared all 8 bits (R64). -/
theorem opcode_of_lookupOpcode {ir : Byte} {op : Op} (h : lookupOpcode ir = some op) : op.opcode = ir := by
  have := List.find?_some h
  simpa using this

theorem lookupOpcode_eq_some_iff (ir : Byte) (op : Op) : lookupOpcode ir = some op ↔ op.opcode = ir :=
  ⟨opcode_of_lookupOpcode, fun h => by rw [← h, lookupOpcode_opcode]⟩

theorem lookupOpcode_eq_none_iff (ir : Byte) : lookupOpcode ir = none ↔ ∀ op : Op, op.opcode ≠ ir := by
  constructor
  · intro h op hop
    rw [(lookupOpcode_eq_some_iff ir op).2 hop] at h
    exact absurd h (by simp)
  · intro h
    cases hl : lookupOpcode ir with
    | none => rfl
    | some op => exact absurd (opcode_of_lookupOpcode hl) (h op)

@[simp] theorem Op.op_instr (op : Op) (a b : Byte) : (op.instr a b).op = op := by
  cases op <;> rfl

/-- Everything a successful decode can be (R83). -/
theorem decode_eq_ok_iff (ir a b : Byte) (i : Instr) :
    decode ir a b = .ok i ↔ ∃ op : Op, op.opcode = ir ∧ op.instr a b = i := by
  unfold decode
  constructor
  · intro h
    split at h
    next => simp at h
    next op hl => exact ⟨op, opcode_of_lookupOpcode hl, by simpa using h⟩
  · rintro ⟨op, rfl, rfl⟩
    simp

/-- A rejected decode names the fetched byte (R66). -/
theorem decode_eq_error_iff (ir a b : Byte) (r : Reject) :
    decode ir a b = .error r ↔ r = .unknownOpcode ir ∧ ∀ op : Op, op.opcode ≠ ir := by
  unfold decode
  split
  next hl => simp [(lookupOpcode_eq_none_iff ir).1 hl, eq_comm]
  next op hl =>
    simp only [reduceCtorEq, false_iff, not_and]
    exact fun _ h => h op (opcode_of_lookupOpcode hl)

end Sys2Proof
end

