-- ==== Sys2Proof/Laws/Memory.lean ====
section
/-! SUPPORT. The laws of memory contents: a read after a write, and the canonical form that every memory operation keeps. -/

namespace Sys2Proof.Machine

@[simp] theorem Memory.get_nil (a : Nat) : Memory.get [] a = Memory.unlisted a := rfl

theorem Memory.get_cons (x : Nat) (c : Byte) (m : Memory) (a : Nat) :
    Memory.get ((x, c) :: m) a = if x = a then c else Memory.get m a := rfl

/-- An address no cell lists reads as an unlisted one. -/
theorem Memory.get_of_absent {m : Memory} {a : Nat} (h : ∀ cell ∈ m, cell.1 ≠ a) : m.get a = Memory.unlisted a := by
  induction m with
  | nil => rfl
  | cons cell m ih =>
    obtain ⟨x, c⟩ := cell
    rw [Memory.get_cons, if_neg (h (x, c) (by simp)), ih fun d hd => h d (by simp [hd])]

theorem Memory.get_filter_ne (m : Memory) {a k : Nat} (h : a ≠ k) :
    Memory.get (m.filter fun cell => cell.1 != k) a = m.get a := by
  induction m with
  | nil => rfl
  | cons cell m ih =>
    obtain ⟨x, c⟩ := cell
    by_cases hx : x = k
    · subst hx
      simp [Memory.get_cons, ih, Ne.symm h]
    · simp [hx, Memory.get_cons, ih]

theorem Memory.get_filter_self (m : Memory) (k : Nat) :
    Memory.get (m.filter fun cell => cell.1 != k) k = Memory.unlisted k :=
  Memory.get_of_absent (by simp [List.mem_filter])

theorem Memory.get_insert_self {m : Memory} {k : Nat} (b : Byte) (h : ∀ cell ∈ m, cell.1 ≠ k) :
    Memory.get (Memory.insert k b m) k = b := by
  induction m with
  | nil => simp [Memory.insert, Memory.get_cons]
  | cons cell m ih =>
    obtain ⟨x, c⟩ := cell
    have hx : x ≠ k := h (x, c) (by simp)
    have ih := ih fun d hd => h d (by simp [hd])
    by_cases hlt : k < x <;> simp [Memory.insert, hlt, Memory.get_cons, hx, ih]

theorem Memory.get_insert_ne (m : Memory) {a k : Nat} (b : Byte) (h : a ≠ k) :
    Memory.get (Memory.insert k b m) a = m.get a := by
  induction m with
  | nil => simp [Memory.insert, Memory.get_cons, Ne.symm h]
  | cons cell m ih =>
    obtain ⟨x, c⟩ := cell
    by_cases hlt : k < x <;> simp [Memory.insert, hlt, Memory.get_cons, Ne.symm h, ih]

/-- A read after a write to the same address gives the byte written (R41), in every memory. -/
@[simp] theorem Memory.get_set_self (m : Memory) (k : Nat) (b : Byte) : (m.set k b).get k = b := by
  unfold Memory.set
  split
  next h => rw [Memory.get_filter_self, h]
  next => exact Memory.get_insert_self b (by simp [List.mem_filter])

/-- A write leaves every other address alone (R41), in every memory. -/
theorem Memory.get_set_ne (m : Memory) {a k : Nat} (b : Byte) (h : a ≠ k) : (m.set k b).get a = m.get a := by
  unfold Memory.set
  split
  next => exact Memory.get_filter_ne m h
  next => rw [Memory.get_insert_ne _ b h, Memory.get_filter_ne m h]

theorem Memory.get_set (m : Memory) (a k : Nat) (b : Byte) : (m.set k b).get a = if a = k then b else m.get a := by
  by_cases h : a = k
  · simp [h]
  · simp [h, Memory.get_set_ne m b h]

/-! ### The canonical form -/

theorem Memory.wfFrom_cons (low a : Nat) (b : Byte) (m : Memory) :
    Memory.wfFrom low ((a, b) :: m) = true ↔
      low ≤ a ∧ a < Config.memSize ∧ b ≠ Memory.unlisted a ∧ Memory.wfFrom (a + 1) m = true := by
  simp [Memory.wfFrom, and_assoc]

theorem Memory.wfFrom_mono {m : Memory} {low low' : Nat} (h : low' ≤ low) (hm : Memory.wfFrom low m = true) :
    Memory.wfFrom low' m = true := by
  cases m with
  | nil => rfl
  | cons cell m =>
    obtain ⟨a, b⟩ := cell
    rw [Memory.wfFrom_cons] at hm ⊢
    exact ⟨h.trans hm.1, hm.2⟩

theorem Memory.wfFrom_filter {m : Memory} {low : Nat} (p : Host.Cell → Bool) (hm : Memory.wfFrom low m = true) :
    Memory.wfFrom low (m.filter p) = true := by
  induction m generalizing low with
  | nil => rfl
  | cons cell m ih =>
    obtain ⟨a, b⟩ := cell
    rw [Memory.wfFrom_cons] at hm
    have hrest := ih hm.2.2.2
    by_cases hp : p (a, b)
    · simp only [List.filter_cons_of_pos hp]
      exact (Memory.wfFrom_cons ..).2 ⟨hm.1, hm.2.1, hm.2.2.1, hrest⟩
    · simp only [List.filter_cons_of_neg hp]
      exact Memory.wfFrom_mono (by omega) hrest

theorem Memory.wfFrom_insert {m : Memory} {low k : Nat} {b : Byte} (hlow : low ≤ k) (hk : k < Config.memSize)
    (hb : b ≠ Memory.unlisted k) (hne : ∀ cell ∈ m, cell.1 ≠ k) (hm : Memory.wfFrom low m = true) :
    Memory.wfFrom low (Memory.insert k b m) = true := by
  induction m generalizing low with
  | nil => exact (Memory.wfFrom_cons ..).2 ⟨hlow, hk, hb, rfl⟩
  | cons cell m ih =>
    obtain ⟨x, c⟩ := cell
    have hx : x ≠ k := hne (x, c) (by simp)
    have hm' := (Memory.wfFrom_cons ..).1 hm
    unfold Memory.insert
    split
    next hlt =>
      exact (Memory.wfFrom_cons ..).2 ⟨hlow, hk, hb, (Memory.wfFrom_cons ..).2 ⟨hlt, hm'.2⟩⟩
    next hlt =>
      exact (Memory.wfFrom_cons ..).2
        ⟨hm'.1, hm'.2.1, hm'.2.2.1, ih (by omega) (fun d hd => hne d (by simp [hd])) hm'.2.2.2⟩

/-- A write to an address of the memory keeps the canonical form. -/
theorem Memory.wf_set {m : Memory} {k : Nat} (b : Byte) (hk : k < Config.memSize) (hm : m.wf = true) :
    (m.set k b).wf = true := by
  unfold Memory.set Memory.wf at *
  split
  next => exact Memory.wfFrom_filter _ hm
  next hb =>
    exact Memory.wfFrom_insert (Nat.zero_le k) hk hb (by simp [List.mem_filter]) (Memory.wfFrom_filter _ hm)

/-- A byte placed from outside keeps the canonical form, at any address. -/
theorem Memory.wf_place {m : Memory} (k : Nat) (b : Byte) (hm : m.wf = true) : (m.place k b).wf = true := by
  unfold Memory.place
  split
  next hk => exact Memory.wf_set b hk hm
  next => exact hm

theorem Memory.place_of_lt (m : Memory) {k : Nat} (b : Byte) (hk : k < Config.memSize) : m.place k b = m.set k b := if_pos hk

/-- A completed load keeps the canonical form. -/
theorem Memory.wf_load {bytes : List Byte} {start : Int} {m m' : Memory} (hm : m.wf = true)
    (h : Memory.load bytes start m = .ok m') : m'.wf = true := by
  induction bytes generalizing start m with
  | nil => cases h; exact hm
  | cons b bytes ih =>
    unfold Memory.load at h
    split at h
    next hin =>
      simp only [inMemory, Bool.and_eq_true, decide_eq_true_eq] at hin
      exact ih (Memory.wf_set b (by omega) hm) h
    next => cases h

theorem State.reset_mem_wf : State.reset.mem.wf = true := rfl

end Sys2Proof.Machine
end

