-- ==== Sys2Proof/Laws/State.lean ====
section
/-! SUPPORT. One lemma per field for each named update of the state, so that no later proof unfolds an update. -/

namespace Sys2Proof.Machine

/-! ### raise -/

@[simp] theorem raise_regs (e : FatalError) (s : State) : (raise e s).regs = s.regs := rfl

@[simp] theorem raise_pc (e : FatalError) (s : State) : (raise e s).pc = s.pc := rfl

@[simp] theorem raise_sp (e : FatalError) (s : State) : (raise e s).sp = s.sp := rfl

@[simp] theorem raise_fl (e : FatalError) (s : State) : (raise e s).fl = s.fl := rfl

@[simp] theorem raise_run (e : FatalError) (s : State) : (raise e s).run = .faulted e := rfl

@[simp] theorem raise_mem (e : FatalError) (s : State) : (raise e s).mem = s.mem := rfl

@[simp] theorem raise_output (e : FatalError) (s : State) : (raise e s).output = s.output := rfl

@[simp] theorem raise_ir (e : FatalError) (s : State) : (raise e s).ir = s.ir := rfl

@[simp] theorem raise_operandA (e : FatalError) (s : State) : (raise e s).operandA = s.operandA := rfl

@[simp] theorem raise_operandB (e : FatalError) (s : State) : (raise e s).operandB = s.operandB := rfl

@[simp] theorem raise_draws (e : FatalError) (s : State) : (raise e s).draws = s.draws := rfl


/-! ### halt -/

@[simp] theorem halt_regs (s : State) : (halt s).regs = s.regs := rfl

@[simp] theorem halt_pc (s : State) : (halt s).pc = s.pc := rfl

@[simp] theorem halt_sp (s : State) : (halt s).sp = s.sp := rfl

@[simp] theorem halt_fl (s : State) : (halt s).fl = s.fl := rfl

@[simp] theorem halt_run (s : State) : (halt s).run = .halted := rfl

@[simp] theorem halt_mem (s : State) : (halt s).mem = s.mem := rfl

@[simp] theorem halt_output (s : State) : (halt s).output = s.output := rfl

@[simp] theorem halt_ir (s : State) : (halt s).ir = s.ir := rfl

@[simp] theorem halt_operandA (s : State) : (halt s).operandA = s.operandA := rfl

@[simp] theorem halt_operandB (s : State) : (halt s).operandB = s.operandB := rfl

@[simp] theorem halt_draws (s : State) : (halt s).draws = s.draws := rfl


/-! ### advance -/

@[simp] theorem advance_regs (op : Op) (s : State) : (advance op s).regs = s.regs := rfl

@[simp] theorem advance_pc (op : Op) (s : State) : (advance op s).pc = s.pc + BitVec.ofNat 9 op.length := rfl

@[simp] theorem advance_sp (op : Op) (s : State) : (advance op s).sp = s.sp := rfl

@[simp] theorem advance_fl (op : Op) (s : State) : (advance op s).fl = s.fl := rfl

@[simp] theorem advance_run (op : Op) (s : State) : (advance op s).run = s.run := rfl

@[simp] theorem advance_mem (op : Op) (s : State) : (advance op s).mem = s.mem := rfl

@[simp] theorem advance_output (op : Op) (s : State) : (advance op s).output = s.output := rfl

@[simp] theorem advance_ir (op : Op) (s : State) : (advance op s).ir = s.ir := rfl

@[simp] theorem advance_operandA (op : Op) (s : State) : (advance op s).operandA = s.operandA := rfl

@[simp] theorem advance_operandB (op : Op) (s : State) : (advance op s).operandB = s.operandB := rfl

@[simp] theorem advance_draws (op : Op) (s : State) : (advance op s).draws = s.draws := rfl


/-! ### jumpTo -/

@[simp] theorem jumpTo_regs (target : Byte) (s : State) : (jumpTo target s).regs = s.regs := rfl

@[simp] theorem jumpTo_pc (target : Byte) (s : State) : (jumpTo target s).pc = target.setWidth 9 := rfl

@[simp] theorem jumpTo_sp (target : Byte) (s : State) : (jumpTo target s).sp = s.sp := rfl

@[simp] theorem jumpTo_fl (target : Byte) (s : State) : (jumpTo target s).fl = s.fl := rfl

@[simp] theorem jumpTo_run (target : Byte) (s : State) : (jumpTo target s).run = s.run := rfl

@[simp] theorem jumpTo_mem (target : Byte) (s : State) : (jumpTo target s).mem = s.mem := rfl

@[simp] theorem jumpTo_output (target : Byte) (s : State) : (jumpTo target s).output = s.output := rfl

@[simp] theorem jumpTo_ir (target : Byte) (s : State) : (jumpTo target s).ir = s.ir := rfl

@[simp] theorem jumpTo_operandA (target : Byte) (s : State) : (jumpTo target s).operandA = s.operandA := rfl

@[simp] theorem jumpTo_operandB (target : Byte) (s : State) : (jumpTo target s).operandB = s.operandB := rfl

@[simp] theorem jumpTo_draws (target : Byte) (s : State) : (jumpTo target s).draws = s.draws := rfl


/-! ### emit -/

@[simp] theorem emit_regs (v : Byte) (s : State) : (emit v s).regs = s.regs := rfl

@[simp] theorem emit_pc (v : Byte) (s : State) : (emit v s).pc = s.pc := rfl

@[simp] theorem emit_sp (v : Byte) (s : State) : (emit v s).sp = s.sp := rfl

@[simp] theorem emit_fl (v : Byte) (s : State) : (emit v s).fl = s.fl := rfl

@[simp] theorem emit_run (v : Byte) (s : State) : (emit v s).run = s.run := rfl

@[simp] theorem emit_mem (v : Byte) (s : State) : (emit v s).mem = s.mem := rfl

@[simp] theorem emit_output (v : Byte) (s : State) : (emit v s).output = s.output ++ [v] := rfl

@[simp] theorem emit_ir (v : Byte) (s : State) : (emit v s).ir = s.ir := rfl

@[simp] theorem emit_operandA (v : Byte) (s : State) : (emit v s).operandA = s.operandA := rfl

@[simp] theorem emit_operandB (v : Byte) (s : State) : (emit v s).operandB = s.operandB := rfl

@[simp] theorem emit_draws (v : Byte) (s : State) : (emit v s).draws = s.draws := rfl


/-! ### launch -/

@[simp] theorem launch_regs (regInit : Vector Byte 8) (memInit : Memory) : (launch regInit memInit).regs = regInit := rfl

@[simp] theorem launch_pc (regInit : Vector Byte 8) (memInit : Memory) : (launch regInit memInit).pc = Config.pcReset := rfl

@[simp] theorem launch_sp (regInit : Vector Byte 8) (memInit : Memory) : (launch regInit memInit).sp = Config.spReset := rfl

@[simp] theorem launch_fl (regInit : Vector Byte 8) (memInit : Memory) : (launch regInit memInit).fl = Config.flReset := rfl

@[simp] theorem launch_run (regInit : Vector Byte 8) (memInit : Memory) : (launch regInit memInit).run = .running := rfl

@[simp] theorem launch_mem (regInit : Vector Byte 8) (memInit : Memory) : (launch regInit memInit).mem = memInit := rfl

@[simp] theorem launch_output (regInit : Vector Byte 8) (memInit : Memory) : (launch regInit memInit).output = [] := rfl

@[simp] theorem launch_ir (regInit : Vector Byte 8) (memInit : Memory) : (launch regInit memInit).ir = 0 := rfl

@[simp] theorem launch_operandA (regInit : Vector Byte 8) (memInit : Memory) : (launch regInit memInit).operandA = 0 := rfl

@[simp] theorem launch_operandB (regInit : Vector Byte 8) (memInit : Memory) : (launch regInit memInit).operandB = 0 := rfl

@[simp] theorem launch_draws (regInit : Vector Byte 8) (memInit : Memory) : (launch regInit memInit).draws = 0 := rfl

/-! ### latched -/

@[simp] theorem latched_regs (s : State) : s.latched.regs = s.regs := rfl

@[simp] theorem latched_pc (s : State) : s.latched.pc = s.pc := rfl

@[simp] theorem latched_sp (s : State) : s.latched.sp = s.sp := rfl

@[simp] theorem latched_fl (s : State) : s.latched.fl = s.fl := rfl

@[simp] theorem latched_run (s : State) : s.latched.run = s.run := rfl

@[simp] theorem latched_mem (s : State) : s.latched.mem = s.mem := rfl

@[simp] theorem latched_output (s : State) : s.latched.output = s.output := rfl

@[simp] theorem latched_draws (s : State) : s.latched.draws = s.draws := rfl

@[simp] theorem latched_ir (s : State) : s.latched.ir = s.byteAt s.pc.toNat := rfl

@[simp] theorem latched_operandA (s : State) : s.latched.operandA = s.byteAt (s.pc.toNat + 1) := rfl

@[simp] theorem latched_operandB (s : State) : s.latched.operandB = s.byteAt (s.pc.toNat + 2) := rfl

end Sys2Proof.Machine
end

