-- ==== Sys2Proof/Laws/Ops.lean ====
section
/-! SUPPORT. One lemma per shared operation that says once everything it can do; proofs cite these instead of unfolding. -/

namespace Sys2Proof.Machine

/-! ### Ranges and memory accesses -/

theorem inMemory_iff (addr : Int) : inMemory addr = true ↔ 0 ≤ addr ∧ addr ≤ 255 := by
  have hsize : (Config.memSize : Int) = 256 := rfl
  simp only [inMemory, Bool.and_eq_true, decide_eq_true_eq]
  omega

theorem memRead_of_le {addr : Int} (s : State) (h : 0 ≤ addr) (h' : addr ≤ 255) :
    memRead addr s = .ok (s.mem.get addr.toNat) := by
  simp [memRead, (inMemory_iff addr).2 ⟨h, h'⟩]

theorem memRead_of_out {addr : Int} (s : State) (h : addr < 0 ∨ 255 < addr) :
    memRead addr s = .error (outOfRange .memory addr s) := by
  have : ¬ inMemory addr = true := by rw [inMemory_iff]; omega
  simp [memRead, this]

theorem memWrite_of_le {addr : Int} (v : Byte) (s : State) (h : 0 ≤ addr) (h' : addr ≤ 255) :
    memWrite addr v s = .ok { s with mem := s.mem.set addr.toNat v } := by
  simp [memWrite, (inMemory_iff addr).2 ⟨h, h'⟩]

theorem memWrite_of_out {addr : Int} (v : Byte) (s : State) (h : addr < 0 ∨ 255 < addr) :
    memWrite addr v s = .error (outOfRange .memory addr s) := by
  have : ¬ inMemory addr = true := by rw [inMemory_iff]; omega
  simp [memWrite, this]

/-! ### Pointers -/

theorem Ptr.ofInt_pred (p : Ptr) : Ptr.ofInt (p.int - 1) = p - 1 := by
  apply BitVec.eq_of_toNat_eq
  have := p.isLt
  have h1 : (1 : Ptr).toNat = 1 := rfl
  simp only [Ptr.ofInt, Ptr.int, BitVec.toNat_ofInt, BitVec.toNat_sub, h1]
  omega

theorem Ptr.ofInt_succ (p : Ptr) : Ptr.ofInt (p.int + 1) = p + 1 := by
  apply BitVec.eq_of_toNat_eq
  have := p.isLt
  have h1 : (1 : Ptr).toNat = 1 := rfl
  simp only [Ptr.ofInt, Ptr.int, BitVec.toNat_ofInt, BitVec.toNat_add, h1]
  omega

/-! ### Registers -/

theorem namesReg_iff (i : Byte) : i.namesReg = true ↔ i.toNat < 8 := by
  simp [Byte.namesReg]

theorem readReg_of_lt {i : Byte} (s : State) (h : i.toNat < 8) : readReg i s = .ok s.regs[i.toNat] := by
  simp [readReg, h]

theorem readReg_of_ge {i : Byte} (s : State) (h : ¬ i.toNat < 8) :
    readReg i s = .error (outOfRange .register (i.toNat : Int) s) := by
  simp [readReg, h]

theorem writeReg_of_lt {i : Byte} (v : Nat) (s : State) (h : i.toNat < 8) :
    writeReg i v s = .ok { s with regs := s.regs.set i.toNat (BitVec.ofNat 8 v) } := by
  simp [writeReg, h]

theorem writeReg_of_ge {i : Byte} (v : Nat) (s : State) (h : ¬ i.toNat < 8) :
    writeReg i v s = .error (outOfRange .register (i.toNat : Int) s) := by
  simp [writeReg, h]

theorem checkReg_of_lt {i : Byte} (s : State) (h : i.toNat < 8) : checkReg i s = .ok () := by
  simp [checkReg, h]

theorem checkReg_of_ge {i : Byte} (s : State) (h : ¬ i.toNat < 8) :
    checkReg i s = .error (outOfRange .register (i.toNat : Int) s) := by
  simp [checkReg, h]

/-! ### Stack -/

/-- A push with room stores at `sp - 1` and lowers `sp` (R120). -/
theorem push_of_room (v : Byte) (s : State) (h : 1 ≤ s.sp.toNat) (h' : s.sp.toNat ≤ 256) :
    push v s = .ok { s with mem := s.mem.set (s.sp.toNat - 1) v, sp := s.sp - 1 } := by
  have hw := memWrite_of_le (addr := s.sp.int - 1) v s (by simp only [Ptr.int]; omega) (by simp only [Ptr.int]; omega)
  have hn : (s.sp.int - 1).toNat = s.sp.toNat - 1 := by simp only [Ptr.int]; omega
  simp only [push, hw, hn, Ptr.ofInt_pred, bind, Except.bind]

/-- A push without room raises for the address `sp - 1` (R120). -/
theorem push_of_no_room (v : Byte) (s : State) (h : s.sp.toNat = 0 ∨ 256 < s.sp.toNat) :
    push v s = .error (outOfRange .memory ((s.sp.toNat : Int) - 1) s) := by
  have hw := memWrite_of_out (addr := s.sp.int - 1) v s (by simp only [Ptr.int]; omega)
  simp only [push, hw, bind, Except.bind]

/-- A pop inside memory reads at `sp` and raises `sp` (R121). -/
theorem pop_of_inside (s : State) (h : s.sp.toNat ≤ 255) :
    pop s = .ok (s.mem.get s.sp.toNat, { s with sp := s.sp + 1 }) := by
  have hr := memRead_of_le (addr := s.sp.int) s (by simp only [Ptr.int]; omega) (by simp only [Ptr.int]; omega)
  simp only [pop, hr, Ptr.ofInt_succ, bind, Except.bind]
  simp [Ptr.int]

/-- A pop past the top of memory raises for the address `sp` (R121). -/
theorem pop_of_outside (s : State) (h : 255 < s.sp.toNat) : pop s = .error (outOfRange .memory (s.sp.toNat : Int) s) := by
  have hr := memRead_of_out (addr := s.sp.int) s (by simp only [Ptr.int]; omega)
  simp only [pop, hr, bind, Except.bind]

/-! ### Outcomes -/

@[simp] theorem finish_ok (s t : State) : finish s (.ok t) = .next t := rfl

@[simp] theorem finish_error (s : State) (e : FatalError) : finish s (.error e) = .next (raise e s) := rfl

/-- Every execution ends in a next state: its result, or the state it started in with the error taken (R156). -/
theorem finish_cases (s : State) (r : Except FatalError State) :
    (∃ t, r = .ok t ∧ finish s r = .next t) ∨ (∃ e, r = .error e ∧ finish s r = .next (raise e s)) := by
  cases r with
  | ok t => exact .inl ⟨t, rfl, rfl⟩
  | error e => exact .inr ⟨e, rfl, rfl⟩

theorem keepIfFaulted_next (s t : State) :
    keepIfFaulted s (.next t) = match t.run with
      | .faulted e => .next (raise e s)
      | .running => .next t
      | .halted => .next t := rfl

theorem keepIfFaulted_of_faulted (s : State) {t : State} {e : FatalError} (h : t.run = .faulted e) :
    keepIfFaulted s (.next t) = .next (raise e s) := by
  rw [keepIfFaulted_next, h]

theorem keepIfFaulted_of_safe (s : State) {t : State} (h : t.safe) : keepIfFaulted s (.next t) = .next t := by
  rw [keepIfFaulted_next]
  split
  next e he => exact absurd he (h e)
  all_goals rfl

/-! ### Flags -/

/-- The three outcomes of a comparison (R112): exactly one flag is set. -/
theorem compareFlags_cases (va vb : Byte) :
    (va = vb ∧ compareFlags va vb = 0x01) ∨
    (va.toNat < vb.toNat ∧ compareFlags va vb = 0x04) ∨
    (vb.toNat < va.toNat ∧ compareFlags va vb = 0x02) := by
  unfold compareFlags
  by_cases h : va = vb
  · simp [h]
  · have hn : va.toNat ≠ vb.toNat := fun hh => h (BitVec.eq_of_toNat_eq hh)
    by_cases hl : va.toNat < vb.toNat
    · simp [h, hl]
    · simp [h, hl]
      omega

/-! ### The ALU -/

/-- ADD, MUL and CMP on two registers that exist, and the first index above 7 otherwise (R110 to R112, R157). -/
theorem alu_of_lt {op : Op} {a b : Byte} (s : State) (ha : a.toNat < 8) (hb : b.toNat < 8) :
    alu op a b s =
      match op with
      | .mul => .ok { s with regs := s.regs.set a.toNat (BitVec.ofNat 8 (s.regs[a.toNat].toNat * s.regs[b.toNat].toNat)) }
      | .add => .ok { s with regs := s.regs.set a.toNat (BitVec.ofNat 8 (s.regs[a.toNat].toNat + s.regs[b.toNat].toNat)) }
      | .cmp => .ok { s with fl := compareFlags s.regs[a.toNat] s.regs[b.toNat] }
      | _ => .error .unsupportedAluOperation := by
  cases op <;> simp [alu, readReg, writeReg, ha, hb, bind, Except.bind]

theorem alu_of_ge_left {op : Op} {a : Byte} (b : Byte) (s : State) (hop : op = .mul ∨ op = .add ∨ op = .cmp)
    (ha : ¬ a.toNat < 8) : alu op a b s = .error (outOfRange .register (a.toNat : Int) s) := by
  obtain rfl | rfl | rfl := hop <;> simp [alu, readReg, ha, bind, Except.bind]

theorem alu_of_ge_right {op : Op} {a b : Byte} (s : State) (hop : op = .mul ∨ op = .add ∨ op = .cmp)
    (ha : a.toNat < 8) (hb : ¬ b.toNat < 8) : alu op a b s = .error (outOfRange .register (b.toNat : Int) s) := by
  obtain rfl | rfl | rfl := hop <;> simp [alu, readReg, ha, hb, bind, Except.bind]

/-! ### Fetch -/

/-- In range, the fetch latches three bytes and changes nothing else (R82). -/
theorem fetch_of_fetchable (s : State) (h : s.fetchable) : fetch s = .ok s.latched := by
  unfold State.fetchable at h
  have h0 : (s.pc.int).toNat = s.pc.toNat := by simp [Ptr.int]
  have h1 : (s.pc.int + 1).toNat = s.pc.toNat + 1 := by simp only [Ptr.int]; omega
  have h2 : (s.pc.int + 2).toNat = s.pc.toNat + 2 := by simp only [Ptr.int]; omega
  have r0 (t : State) := memRead_of_le (addr := s.pc.int) t (by simp only [Ptr.int]; omega) (by simp only [Ptr.int]; omega)
  have r1 (t : State) := memRead_of_le (addr := s.pc.int + 1) t (by simp only [Ptr.int]; omega) (by simp only [Ptr.int]; omega)
  have r2 (t : State) := memRead_of_le (addr := s.pc.int + 2) t (by simp only [Ptr.int]; omega) (by simp only [Ptr.int]; omega)
  simp only [fetch, r0, r1, r2, h0, h1, h2, bind, Except.bind]
  rfl

/-- Out of range, the first read outside memory raises; `ir` is recorded if it was read (R82, R157). -/
theorem fetch_of_not_fetchable (s : State) (h : ¬ s.fetchable) :
    fetch s = .error (.addressOutOfRange .memory (if s.pc.toNat ≤ 255 then 256 else (s.pc.toNat : Int)) s.pc
      (if s.pc.toNat ≤ 255 then s.byteAt s.pc.toNat else Config.unfetchedIr s.draws)) := by
  unfold State.fetchable at h
  by_cases h0 : s.pc.toNat ≤ 255
  · have e0 : (s.pc.int).toNat = s.pc.toNat := by simp [Ptr.int]
    have r0 (t : State) := memRead_of_le (addr := s.pc.int) t (by simp only [Ptr.int]; omega) (by simp only [Ptr.int]; omega)
    by_cases h1 : s.pc.toNat ≤ 254
    · have r1 (t : State) :=
        memRead_of_le (addr := s.pc.int + 1) t (by simp only [Ptr.int]; omega) (by simp only [Ptr.int]; omega)
      have r2 (t : State) := memRead_of_out (addr := 256) t (by omega)
      have hv : s.pc.int + 2 = 256 := by simp only [Ptr.int]; omega
      simp only [fetch, hv, r0, r1, r2, e0, h0, outOfRange, bind, Except.bind, if_true]
      rfl
    · have r1 (t : State) := memRead_of_out (addr := 256) t (by omega)
      have hv : s.pc.int + 1 = 256 := by simp only [Ptr.int]; omega
      simp only [fetch, hv, r0, r1, e0, h0, outOfRange, bind, Except.bind, if_true]
      rfl
  · have r0 (t : State) := memRead_of_out (addr := s.pc.int) t (by simp only [Ptr.int]; omega)
    simp only [fetch, r0, h0, outOfRange, bind, Except.bind, if_false]

end Sys2Proof.Machine
end

