-- ==== Sys2Proof/Laws/PerInstr.lean ====
section
/-! SUPPORT. Statements for all instructions, made per instruction. EncodedForm: the encoding starts with the instruction's opcode byte
and has its length (30_encoding.md R60, R63, R65). -/

namespace Sys2Proof.Laws.EncodedForm

/-- The first byte of the encoding is the opcode, and its length is the instruction's. -/
def Statement (i : Instr) : Prop := (encode i).head? = some i.opcode ∧ (encode i).length = i.length

theorem hlt : Statement .hlt := ⟨rfl, rfl⟩

theorem ldi (a imm : Byte) : Statement (.ldi a imm) := ⟨rfl, rfl⟩

theorem prn (a : Byte) : Statement (.prn a) := ⟨rfl, rfl⟩

theorem mul (a b : Byte) : Statement (.mul a b) := ⟨rfl, rfl⟩

theorem add (a b : Byte) : Statement (.add a b) := ⟨rfl, rfl⟩

theorem cmp (a b : Byte) : Statement (.cmp a b) := ⟨rfl, rfl⟩

theorem push (a : Byte) : Statement (.push a) := ⟨rfl, rfl⟩

theorem pop (a : Byte) : Statement (.pop a) := ⟨rfl, rfl⟩

theorem call (a : Byte) : Statement (.call a) := ⟨rfl, rfl⟩

theorem ret : Statement .ret := ⟨rfl, rfl⟩

theorem jmp (a : Byte) : Statement (.jmp a) := ⟨rfl, rfl⟩

theorem jeq (a : Byte) : Statement (.jeq a) := ⟨rfl, rfl⟩

theorem jne (a : Byte) : Statement (.jne a) := ⟨rfl, rfl⟩

end Sys2Proof.Laws.EncodedForm
end

