-- ==== Sys2Proof/Laws/Step.lean ====
section
/-! SUPPORT. What an execution and a step can do, said once: the cases every later proof starts from. -/

namespace Sys2Proof.Machine

/-- An execution is a result that is finished in the state it started in; so it always answers a next state. -/
theorem exec_eq_finish (i : Instr) (s : State) : ∃ r, exec i s = finish s r := by
  cases i <;>
    simp only [exec, execHlt, execLdi, execPrn, execMul, execAdd, execCmp, execPush, execPop, execCall, execRet, execJmp, execJeq,
      execJne] <;>
    exact ⟨_, rfl⟩

/-- No step from Halted or Faulted (40_cycle.md R81). -/
theorem step_of_reason {s : State} {r : TerminationReason} (h : s.run.reason = some r) :
    step s = .fault (.terminated r) := by
  unfold step
  cases hr : s.run with
  | running => simp [hr, RunState.reason] at h
  | halted => simp_all [RunState.reason]
  | faulted e => simp_all [RunState.reason]

/-- A step whose fetch is in range executes what it fetched (R85). -/
theorem step_of_fetchable {s : State} (hr : s.run = .running) (hf : s.fetchable) :
    step s = executeFetched exec s s.latched := by
  simp [step, hr, fetch_of_fetchable s hf]

/-- A step whose fetch is out of range takes the fetch's error (R82, R157). -/
theorem step_of_not_fetchable {s : State} (hr : s.run = .running) (hf : ¬ s.fetchable) :
    ∃ e, fetch s = .error e ∧ step s = .next (raiseInFetch e s) := by
  have h := fetch_of_not_fetchable s hf
  exact ⟨_, h, by simp [step, hr, h]⟩

/-- The latches hold what the decoder reads at `pc`. -/
@[simp] theorem decodeLatched_latched (s : State) : decodeLatched s.latched = s.current := rfl

/-- Executing a decoded instruction (R84). -/
theorem executeFetched_of_ok {s : State} {i : Instr} (h : s.current = .ok i) :
    executeFetched exec s s.latched = keepIfFaulted s (exec i s.latched) := by
  simp [executeFetched, h]

/-- Executing an illegal opcode byte (R83). -/
theorem executeFetched_of_error {s : State} {r : Reject} (h : s.current = .error r) :
    executeFetched exec s s.latched = .next (raise (.unknownOpcode s.pc (s.byteAt s.pc.toNat)) s) := by
  have hd := (decode_eq_error_iff _ _ _ r).1 h
  unfold executeFetched
  rw [decodeLatched_latched, h]
  simp [unknownOpcode, hd.1]

/-- Everything a step from Running can do: fail in the fetch, meet an illegal opcode byte, or execute the decoded instruction, whose
result is kept when it raised nothing and dropped but for the error when it raised. -/
theorem step_cases {s t : State} (h : step s = .next t) :
    s.run = .running ∧
    ((¬ s.fetchable ∧ ∃ e, fetch s = .error e ∧ t = raiseInFetch e s) ∨
     (s.fetchable ∧ ∃ r, s.current = .error r ∧ t = raise (.unknownOpcode s.pc (s.byteAt s.pc.toNat)) s) ∨
     (s.fetchable ∧ ∃ i u, s.current = .ok i ∧ exec i s.latched = .next u ∧
        ((u.safe ∧ t = u) ∨ ∃ e, u.run = .faulted e ∧ t = raise e s))) := by
  have hr : s.run = .running := by
    cases hrun : s.run with
    | running => rfl
    | halted => simp [step, hrun] at h
    | faulted e => simp [step, hrun] at h
  refine ⟨hr, ?_⟩
  by_cases hf : s.fetchable
  · rw [step_of_fetchable hr hf] at h
    cases hc : s.current with
    | error r =>
      rw [executeFetched_of_error hc] at h
      exact .inr (.inl ⟨hf, r, rfl, by simpa using h.symm⟩)
    | ok i =>
      rw [executeFetched_of_ok hc] at h
      obtain ⟨r, hx⟩ := exec_eq_finish i s.latched
      obtain ⟨u, hu⟩ : ∃ u, exec i s.latched = .next u := by
        rw [hx]
        obtain ⟨u, -, hu⟩ | ⟨e, -, hu⟩ := finish_cases s.latched r <;> exact ⟨_, hu⟩
      rw [hu] at h
      refine .inr (.inr ⟨hf, i, u, rfl, hu, ?_⟩)
      by_cases hs : u.safe
      · rw [keepIfFaulted_of_safe s hs] at h
        exact .inl ⟨hs, by simpa using h.symm⟩
      · obtain ⟨e, he⟩ : ∃ e, u.run = .faulted e := by simpa [State.safe] using hs
        rw [keepIfFaulted_of_faulted s he] at h
        exact .inr ⟨e, he, by simpa using h.symm⟩
  · obtain ⟨e, he, hs⟩ := step_of_not_fetchable hr hf
    rw [hs] at h
    exact .inl ⟨hf, e, he, by simpa using h.symm⟩

end Sys2Proof.Machine
end

