-- ==== Sys2Proof/Tests/Slice0.lean ====
section
/-! SUPPORT. Tests. Expected results come from spec/95_test_vectors.md (named V-…) or from the rules' own examples; decoding tests are
words written out from spec/30_encoding.md R65. A `witness_` theorem shows a state and operands that meet the hypotheses of the
statement it names, at the boundaries of its clauses. -/

namespace Sys2Proof.Tests

open Sys2Proof Sys2Proof.Machine

/-! ### Helpers -/

/-- A memory with `bytes` from address `a` on. -/
def cells : Nat → List Byte → Memory
  | _, [] => []
  | a, b :: bytes => (cells (a + 1) bytes).set a b

/-- The state after reset with `pc` and the bytes there. -/
def placed (pc : Nat) (bytes : List Byte) : State :=
  { State.reset with pc := BitVec.ofNat 9 pc, mem := cells pc bytes }

/-- The state with register `r` holding `v`. -/
def withReg (r : Fin 8) (v : Byte) (s : State) : State := { s with regs := s.regs.set r v }

/-- The state with another stack pointer. -/
def withSp (sp : Nat) (s : State) : State := { s with sp := BitVec.ofNat 9 sp }

/-- The state with other flags. -/
def withFl (fl : Byte) (s : State) : State := { s with fl := fl }

/-- The state with byte `b` at address `a`. -/
def withByte (a : Nat) (b : Byte) (s : State) : State := { s with mem := s.mem.set a b }

/-- The outcome is a next state that passes the check. -/
def nextIs (o : Host.Outcome State Fault Refusal) (check : State → Bool) : Bool :=
  match o with
  | .next t => check t
  | .fault _ => false
  | .refused _ => false

/-- One step gives a Running state that passes the check. -/
def stepIs (s : State) (check : State → Bool) : Bool :=
  nextIs (step s) fun t => decide (t.run = .running) && check t

/-- One step ends in this fatal error. -/
def stepRaises (s : State) (e : FatalError) : Bool := nextIs (step s) fun t => decide (t.run = .faulted e)

/-! ### Well-formedness: each check refuses an ill-formed term -/

theorem test_wf_ldi : (Instr.ldi 8 0).wf = false ∧ (Instr.ldi 7 255).wf = true := by decide

theorem test_wf_prn : (Instr.prn 255).wf = false ∧ (Instr.prn 0).wf = true := by decide

theorem test_wf_mul : (Instr.mul 8 0).wf = false ∧ (Instr.mul 0 8).wf = false ∧ (Instr.mul 7 7).wf = true := by decide

theorem test_wf_add : (Instr.add 9 0).wf = false ∧ (Instr.add 0 9).wf = false ∧ (Instr.add 0 7).wf = true := by decide

theorem test_wf_cmp : (Instr.cmp 8 7).wf = false ∧ (Instr.cmp 7 8).wf = false ∧ (Instr.cmp 7 0).wf = true := by decide

theorem test_wf_push : (Instr.push 8).wf = false ∧ (Instr.push 7).wf = true := by decide

theorem test_wf_pop : (Instr.pop 16).wf = false ∧ (Instr.pop 7).wf = true := by decide

theorem test_wf_call : (Instr.call 8).wf = false ∧ (Instr.call 7).wf = true := by decide

theorem test_wf_jumps :
    (Instr.jmp 8).wf = false ∧ (Instr.jeq 200).wf = false ∧ (Instr.jne 128).wf = false ∧ (Instr.jmp 7).wf = true := by decide

/-! ### Decoding: words written out bit by bit (R65) -/

theorem test_decode_hlt : decode 0b00000001 0b10000010 0b01000111 = .ok .hlt := by decide

theorem test_decode_ldi : decode 0b10000010 0b00000111 0b11111111 = .ok (.ldi 7 255) := by decide

theorem test_decode_prn : decode 0b01000111 0b00000001 0b00000000 = .ok (.prn 1) := by decide

theorem test_decode_mul : decode 0b10100010 0b00000010 0b00000011 = .ok (.mul 2 3) := by decide

theorem test_decode_add : decode 0b10100000 0b00000100 0b00000101 = .ok (.add 4 5) := by decide

theorem test_decode_cmp : decode 0b10100111 0b00000110 0b00000111 = .ok (.cmp 6 7) := by decide

theorem test_decode_push : decode 0b01000101 0b00000010 0b11111111 = .ok (.push 2) := by decide

theorem test_decode_pop : decode 0b01000110 0b00000011 0b11111111 = .ok (.pop 3) := by decide

theorem test_decode_call : decode 0b01010000 0b00000100 0b00000001 = .ok (.call 4) := by decide

theorem test_decode_ret : decode 0b00010001 0b00000101 0b00000110 = .ok .ret := by decide

theorem test_decode_jmp : decode 0b01010100 0b00000101 0b00000110 = .ok (.jmp 5) := by decide

theorem test_decode_jeq : decode 0b01010101 0b11001000 0b00000110 = .ok (.jeq 200) := by decide

theorem test_decode_jne : decode 0b01010110 0b00000000 0b00000110 = .ok (.jne 0) := by decide

/-- V-C8: bytes whose fields look like instructions are illegal (D23). -/
theorem test_decode_no_fields :
    [0xA1, 0xA3, 0x84, 0x52, 0x12].all (fun ir : Byte => decide (decode ir 0 0 = .error (.unknownOpcode ir))) = true := by decide

theorem test_table_word : decodeTableWord 24 0x080082 = some (.ldi 0 8) ∧ decodeTableWord 8 0x08FF01 = some .hlt ∧
    decodeTableWord 16 0x0147 = some (.prn 1) ∧ decodeTableWord 8 0 = none := by decide

/-! ### Steps -/

/-- V-C1: an HLT at 253 runs. -/
theorem test_hlt : nextIs (step (placed 253 [0x01])) (fun t => decide (t.run = .halted) && decide (t.pc = 253)) = true := by decide

/-- V-C2: an HLT at 254 never runs. -/
theorem test_hlt_at_254 : stepRaises (placed 254 [0x01]) (.addressOutOfRange .memory 256 254 0x01) = true := by decide

/-- V-C3: fetch before decode. -/
theorem test_illegal_at_255 : stepRaises (placed 255 [0xFF]) (.addressOutOfRange .memory 256 255 0xFF) = true := by decide

/-- V-C4. -/
theorem test_fetch_at_256 :
    nextIs (step (placed 256 [])) (fun t =>
      match t.run with
      | .faulted (.addressOutOfRange .memory v _ _) => decide (v = 256)
      | _ => false) = true := by decide

/-- V-C6. -/
theorem test_unknown_opcode : stepRaises (placed 100 [0xFF]) (.unknownOpcode 100 0xFF) = true := by decide

/-- A Halted core takes no step (R81). -/
theorem test_halted_stops :
    (match step { State.reset with run := .halted } with
      | .fault f => decide (f = .terminated .halted)
      | _ => false) = true := by decide

/-- V-C7. -/
theorem test_ldi_at_253 :
    stepIs (placed 253 [0x82, 0x00, 0x09]) (fun t => decide (t.regs[0] = 9) && decide (t.pc = 256)) = true := by decide

/-- V-D4. -/
theorem test_ldi_index_8 : stepRaises (placed 0 [0x82, 0x08, 0x01]) (.addressOutOfRange .register 8 0 0x82) = true := by decide

/-- V-D5. -/
theorem test_prn :
    stepIs (withReg 7 200 (placed 10 [0x47, 0x07])) (fun t => decide (t.output = [200]) && decide (t.pc = 12)) = true := by decide

/-- V-D6. -/
theorem test_prn_index_8 :
    nextIs (step (placed 10 [0x47, 0x08])) (fun t =>
      decide (t.run = .faulted (.addressOutOfRange .register 8 10 0x47)) && decide (t.output = [])) = true := by decide

/-- V-A5. -/
theorem test_mul_wraps :
    stepIs (withReg 1 255 (withReg 0 255 (placed 0 [0xA2, 0x00, 0x01]))) (fun t => decide (t.regs[0] = 1)) = true := by decide

/-- V-A7: both operands one register. -/
theorem test_mul_square : stepIs (withReg 0 20 (placed 0 [0xA2, 0x00, 0x00])) (fun t => decide (t.regs[0] = 144)) = true := by decide

/-- V-A1. -/
theorem test_add_wraps :
    stepIs (withReg 1 100 (withReg 0 200 (placed 0 [0xA0, 0x00, 0x01]))) (fun t =>
      decide (t.regs[0] = 44) && decide (t.regs[1] = 100) && decide (t.pc = 3)) = true := by decide

/-- V-A15. -/
theorem test_add_index_10 : stepRaises (placed 0 [0xA0, 0x00, 0x0A]) (.addressOutOfRange .register 10 0 0xA0) = true := by decide

/-- V-A10: the comparison is unsigned. -/
theorem test_cmp_unsigned : stepIs (withReg 1 255 (placed 0 [0xA7, 0x00, 0x01])) (fun t => decide (t.fl = 0x04)) = true := by decide

/-- V-A13: the first index is checked first, and FL is kept. -/
theorem test_cmp_index_8 :
    nextIs (step (withFl 0x02 (placed 0 [0xA7, 0x08, 0x09]))) (fun t =>
      decide (t.run = .faulted (.addressOutOfRange .register 8 0 0xA7)) && decide (t.fl = 0x02)) = true := by decide

/-- V-S2: the lowest address. -/
theorem test_push_to_0 :
    stepIs (withReg 0 5 (withSp 1 (placed 10 [0x45, 0x00]))) (fun t =>
      decide (t.byteAt 0 = 5) && decide (t.sp = 0) && decide (t.pc = 12)) = true := by decide

/-- V-S3: no room. -/
theorem test_push_overflow :
    stepRaises (withReg 0 5 (withSp 0 (placed 10 [0x45, 0x00]))) (.addressOutOfRange .memory (-1) 10 0x45) = true := by decide

/-- V-S5: the highest address. -/
theorem test_pop_from_255 :
    stepIs (withByte 255 0x77 (withSp 255 (placed 10 [0x46, 0x02]))) (fun t =>
      decide (t.regs[2] = 0x77) && decide (t.sp = 256) && decide (t.byteAt 255 = 0x77)) = true := by decide

/-- V-S7: the register check comes before the pop. -/
theorem test_pop_index_9 : stepRaises (withSp 256 (placed 10 [0x46, 0x09])) (.addressOutOfRange .register 9 10 0x46) = true := by
  decide

/-- V-CF1. -/
theorem test_call :
    stepIs (withReg 2 17 (withSp 0xF3 (placed 8 [0x50, 0x02]))) (fun t =>
      decide (t.byteAt 0xF2 = 10) && decide (t.sp = 0xF2) && decide (t.pc = 17)) = true := by decide

/-- V-CF2: the highest return address. -/
theorem test_call_at_253 :
    stepIs (withReg 1 40 (placed 253 [0x50, 0x01])) (fun t => decide (t.byteAt 0xF3 = 255) && decide (t.pc = 40)) = true := by decide

/-- V-CF4. -/
theorem test_ret :
    stepIs (withByte 0xF2 0x0A (withSp 0xF2 (placed 0 [0x11]))) (fun t => decide (t.pc = 10) && decide (t.sp = 0xF3)) = true := by decide

/-- V-CF5. -/
theorem test_ret_underflow : stepRaises (withSp 256 (placed 10 [0x11])) (.addressOutOfRange .memory 256 10 0x11) = true := by decide

/-- V-CF6: the target is not checked. -/
theorem test_jmp_to_254 : stepIs (withReg 1 254 (placed 10 [0x54, 0x01])) (fun t => decide (t.pc = 254)) = true := by decide

/-- V-CF15: a JEQ not taken does not check its index (D9). -/
theorem test_jeq_not_taken : stepIs (withFl 0x04 (placed 10 [0x55, 0xC8])) (fun t => decide (t.pc = 12)) = true := by decide

/-- V-CF7. -/
theorem test_jeq_taken : stepIs (withFl 0x01 (withReg 2 15 (placed 12 [0x55, 0x02]))) (fun t => decide (t.pc = 15)) = true := by decide

/-- V-CF17. -/
theorem test_jne_index_200 :
    stepRaises (withFl 0x04 (placed 10 [0x56, 0xC8])) (.addressOutOfRange .register 200 10 0x56) = true := by decide

/-- V-CF11: taken before any CMP. -/
theorem test_jne_taken : stepIs (withReg 3 99 (placed 10 [0x56, 0x03])) (fun t => decide (t.pc = 99)) = true := by decide

/-- A word stored for the fetch at reset is what the first step runs. -/
theorem test_with_fetch_word : stepIs (State.reset.withFetchWord 24 0x080082) (fun t => decide (t.regs[0] = 8)) = true := by decide

/-- S-1's first line of program text is its first byte; a comment and a blank line are skipped (R74). -/
theorem test_read_lines :
    readLines ["# print 8".toList, "".toList, "10000010 # LDI R0,8".toList, "00000000".toList] = .ok [0x82, 0x00] := by decide

/-- S-5: a program of no bytes is EmptyProgram; a line that is no literal is InvalidInstructionLiteral (R96). -/
theorem test_read_program_failures :
    readProgram (some ["#".toList]) = .error .emptyProgram ∧
    readProgram (some ["0000000".toList]) = .error .invalidInstructionLiteral ∧
    readProgram none = .error .programFileNotFound := by decide

/-- R95: a load past 255 fails for the first address outside. -/
theorem test_load_too_long : load [1, 2] 255 State.reset = .error (.addressOutOfRange 256) := by decide

/-! ### Witnesses: states and operands that meet the hypotheses of the statements -/

theorem witness_DecodedBytesBeginWithTheEncoding : decode 0x82 7 255 = .ok (.ldi 7 255) := by decide

theorem witness_DecodeComparesTheWholeOpcodeByte :
    decode 0x56 255 0 = .ok (.jne 255) ∧ decode 0x56 0 255 = .ok (.jne 0) ∧ (0x00 : Byte) ∉ legalOpcodes ∧ (0xFF : Byte) ∉ legalOpcodes := by
  decide

theorem witness_UnusedOperandBytesDoNotMatter :
    decode 0x47 3 9 = .ok (.prn 3) ∧ (Instr.prn 3).length = 2 ∧ decode 0x01 3 9 = .ok .hlt ∧ Instr.hlt.length = 1 ∧
    (Instr.cmp 1 2).length = 3 := by decide

theorem witness_StepRunsTheDecodedInstruction :
    (placed 253 [0x01]).run = .running ∧ (placed 253 [0x01]).fetchable ∧ (placed 253 [0x01]).current = .ok .hlt ∧
    nextIs (exec (.prn 8) (placed 0 [0x47, 0x08]).latched) (fun t => decide (t.run ≠ .running)) = true := by decide

theorem witness_IllegalOpcodeRaisesUnknownOpcode :
    (placed 253 [0x11]).run = .running ∧ (placed 253 [0x11]).fetchable ∧ (placed 253 [0x11]).byteAt 253 ∈ legalOpcodes ∧
    (placed 253 [0x00]).fetchable ∧ (placed 253 [0x00]).byteAt 253 ∉ legalOpcodes := by decide

theorem witness_FetchAtTheTopOfMemoryFaults :
    (placed 254 []).run = .running ∧ (placed 254 []).pc.toNat = 254 ∧ (placed 255 []).pc.toNat = 255 ∧ (placed 256 []).pc.toNat = 256 := by
  decide

theorem witness_TerminatedCoreKeepsItsReason :
    ({ State.reset with run := .halted } : State).run = .halted ∧
    (raise (.unknownOpcode 0 0) State.reset).run = .faulted (.unknownOpcode 0 0) := by decide

theorem witness_FaultingStepKeepsNoOtherChange : stepRaises (placed 0 [0xA0, 0x00, 0x08]) (.addressOutOfRange .register 8 0 0xA0) = true := by
  decide

theorem witness_HaltedIsEnteredOnlyByHlt :
    nextIs (step (placed 0 [0x01])) (fun t => decide (t.run = .halted)) = true ∧ stepIs (placed 0 [0x82]) (fun _ => true) = true := by
  decide

theorem witness_ExecutionErrorsMatchTheTable :
    (Instr.push 8).errorIn (withSp 0 State.reset) = some (.addressOutOfRange .register 8 0 0) ∧
    (Instr.push 7).errorIn (withSp 0 State.reset) = some (.addressOutOfRange .memory (-1) 0 0) ∧
    (Instr.push 7).errorIn (withSp 1 State.reset) = none ∧ (Instr.push 7).errorIn (withSp 256 State.reset) = none ∧
    (Instr.pop 0).errorIn (withSp 256 State.reset) = some (.addressOutOfRange .memory 256 0 0) ∧
    Instr.ret.errorIn (withSp 255 State.reset) = none ∧
    (Instr.jeq 8).errorIn State.reset = none ∧ (Instr.jne 8).errorIn State.reset = some (.addressOutOfRange .register 8 0 0) := by decide

theorem inv_placed_push : Inv (withSp 0 (placed 10 [0x45, 0x00])) :=
  ⟨by decide, by decide, by decide, by decide, by decide⟩

theorem inv_placed_pop : Inv (withSp 256 (placed 10 [0x46, 0x00])) :=
  ⟨by decide, by decide, by decide, by decide, by decide⟩

theorem inv_placed_prn : Inv (placed 10 [0x47, 0x08]) :=
  ⟨by decide, by decide, by decide, by decide, by decide⟩

/-- The states of `inv_placed_push`, `inv_placed_pop` and `inv_placed_prn` meet `Inv` and raise at the boundary values. -/
theorem witness_OutOfRangeValuesThatArise :
    stepRaises (withSp 0 (placed 10 [0x45, 0x00])) (.addressOutOfRange .memory (-1) 10 0x45) = true ∧
    stepRaises (withSp 256 (placed 10 [0x46, 0x00])) (.addressOutOfRange .memory 256 10 0x46) = true ∧
    stepRaises (placed 10 [0x47, 0x08]) (.addressOutOfRange .register 8 10 0x47) = true ∧
    stepRaises (placed 10 [0x47, 0xFF]) (.addressOutOfRange .register 255 10 0x47) = true := by decide

theorem witness_AluRejectsOtherOperations : Op.hlt ∉ [Op.add, Op.mul, Op.cmp] := by decide

theorem witness_WellFormedInstructionStepCompletes :
    (placed 253 [0x45, 0x07]).run = .running ∧ (placed 253 [0x45, 0x07]).fetchable ∧
    (placed 253 [0x45, 0x07]).current = .ok (.push 7) ∧ (Instr.push 7).wf = true ∧
    (withSp 1 State.reset).sp.toNat = 1 ∧ (withSp 255 State.reset).sp.toNat = 255 := by decide

/-- The clauses of the statements about one register operand: LDI, PRN and JMP. -/
theorem witness_LdiLoadsTheImmediate : (7 : Byte).toNat ≤ 7 ∧ 7 < (8 : Byte).toNat := by decide

theorem witness_PrnDeliversTheRegister : (7 : Byte).toNat = (7 : Fin 8).val ∧ 7 < (8 : Byte).toNat := by decide

theorem witness_JmpGoesToTheRegister : (0 : Byte).toNat = (0 : Fin 8).val ∧ 7 < (255 : Byte).toNat := by decide

/-- The clauses of the statements about two register operands: MUL, ADD and CMP. -/
theorem witness_MulWritesTheProductMod256 :
    (7 : Byte).toNat = (7 : Fin 8).val ∧ (0 : Byte).toNat = (0 : Fin 8).val ∧ 7 < (8 : Byte).toNat ∧ (7 : Byte).toNat ≤ 7 := by decide

theorem witness_AddWritesTheSumMod256 :
    (0 : Byte).toNat = (0 : Fin 8).val ∧ (7 : Byte).toNat = (7 : Fin 8).val ∧ 7 < (8 : Byte).toNat ∧ (0 : Byte).toNat ≤ 7 := by decide

theorem witness_CmpSetsExactlyOneFlag :
    (7 : Byte).toNat = (7 : Fin 8).val ∧ 7 < (8 : Byte).toNat ∧
    (withReg 1 255 State.reset).regs[0].toNat < (withReg 1 255 State.reset).regs[1].toNat ∧
    State.reset.regs[0].toNat = State.reset.regs[1].toNat := by decide

theorem witness_PushStoresBelowTheStackPointer :
    (7 : Byte).toNat = (7 : Fin 8).val ∧ 7 < (8 : Byte).toNat ∧ (withSp 1 State.reset).sp.toNat = 1 ∧
    (withSp 256 State.reset).sp.toNat = 256 ∧ (withSp 0 State.reset).sp.toNat = 0 ∧ 256 < (withSp 257 State.reset).sp.toNat := by decide

theorem witness_PopLoadsTheTopOfStack :
    (0 : Byte).toNat = (0 : Fin 8).val ∧ 7 < (8 : Byte).toNat ∧ (withSp 255 State.reset).sp.toNat = 255 ∧
    255 < (withSp 256 State.reset).sp.toNat := by decide

theorem witness_CallPushesTheReturnAddressAndJumps :
    (7 : Byte).toNat = (7 : Fin 8).val ∧ (withSp 1 (placed 253 [])).sp.toNat = 1 ∧ (withSp 1 (placed 253 [])).fetchable ∧
    (withSp 256 (placed 0 [])).sp.toNat = 256 ∧ (withSp 0 State.reset).sp.toNat = 0 ∧ 7 < (8 : Byte).toNat := by decide

theorem witness_RetJumpsToThePoppedByte :
    (withSp 255 State.reset).sp.toNat ≤ 255 ∧ (withSp 0 State.reset).sp.toNat ≤ 255 ∧ 255 < (withSp 256 State.reset).sp.toNat := by decide

theorem witness_JeqBranchesWhenEqual :
    (7 : Byte).toNat = (7 : Fin 8).val ∧ 7 < (8 : Byte).toNat ∧ (withFl 0x01 State.reset).fl[0] = true ∧
    (withFl 0x04 State.reset).fl[0] = false ∧ (withFl 0x02 State.reset).fl[0] = false ∧ State.reset.fl[0] = false := by decide

theorem witness_JneBranchesWhenNotEqual :
    (0 : Byte).toNat = (0 : Fin 8).val ∧ 7 < (8 : Byte).toNat ∧ (withFl 0x01 State.reset).fl[0] = true ∧
    (withFl 0x04 State.reset).fl[0] = false := by decide

theorem witness_OnlyTheDestinationRegisterChanges :
    nextIs (exec (.ldi 7 1) State.reset) (fun t => decide (t.regs[7] = 1)) = true ∧
    (∀ d, (Instr.ldi 7 1).destination = some d → d.toNat ≠ (6 : Fin 8).val) ∧ Instr.ret.destination = none :=
  ⟨by decide, by simp [Instr.destination], by decide⟩

theorem witness_OnlyPushedBytesChangeMemory :
    nextIs (exec (.push 0) (withReg 0 9 State.reset)) (fun t => decide (t.byteAt 0xF3 = 9)) = true ∧
    ((0xF4 : Nat) : Int) ≠ (State.reset.sp.toNat : Int) - 1 ∧ ((0xF2 : Nat) : Int) ≠ (State.reset.sp.toNat : Int) - 1 := by decide

theorem witness_FlagsChangeOnlyByCmp : stepIs (placed 0 [0xA7, 0x04, 0x04]) (fun t => decide (t.fl ≠ State.reset.fl)) = true := by decide

theorem witness_StackPointerMovesOnlyByPushAndPop :
    stepIs (placed 0 [0x45, 0x00]) (fun t => decide (t.sp ≠ State.reset.sp)) = true ∧
    stepIs (placed 0 [0x11]) (fun t => decide (t.sp ≠ State.reset.sp)) = true := by decide

theorem witness_OutputGrowsOnlyByPrn : stepIs (placed 0 [0x47, 0x07]) (fun t => decide (t.output ≠ State.reset.output)) = true := by decide

theorem witness_SequentialAdvanceDoesNotWrap :
    (placed 253 [0xA0, 0x00, 0x01]).fetchable ∧ (placed 253 [0xA0, 0x00, 0x01]).current = .ok (.add 0 1) ∧
    stepIs (placed 253 [0xA0, 0x00, 0x01]) (fun t => decide (t.pc = 256)) = true ∧
    (Instr.add 0 1).op ∉ [Op.hlt, Op.call, Op.ret, Op.jmp, Op.jeq, Op.jne] := by decide

theorem witness_OnlyTheEqualFlagIsRead :
    (0x02 : Byte)[0] = (withFl 0x04 (placed 0 [0x55, 0x00])).fl[0] ∧ stepIs (withFl 0x04 (placed 0 [0x55, 0x00])) (fun _ => true) = true := by
  decide

theorem witness_PopAfterPushGivesTheValueBack :
    (0 : Byte).toNat = (0 : Fin 8).val ∧ (7 : Byte).toNat = (7 : Fin 8).val ∧ (withSp 1 State.reset).sp.toNat = 1 ∧
    (withSp 256 State.reset).sp.toNat = 256 := by decide

/-- The state after the CALL is itself such a later state. -/
theorem witness_RetAfterCallResumesAfterTheCall :
    (2 : Byte).toNat = (2 : Fin 8).val ∧ (withSp 1 (placed 253 [])).fetchable ∧ (withSp 1 (placed 253 [])).sp.toNat = 1 ∧
    nextIs (exec (.call 2) (withSp 1 (placed 253 []))) (fun t => decide (t.byteAt 0 = 255) && decide (t.sp = 0)) = true := by decide

theorem witness_NextFetchSeesThePushedByte :
    (withSp 253 (placed 250 [0x45, 0x07])).run = .running ∧ (withSp 253 (placed 250 [0x45, 0x07])).fetchable ∧
    (withSp 253 (placed 250 [0x45, 0x07])).byteAt 250 = 0x45 ∧
    ((withSp 253 (placed 250 [0x45, 0x07])).byteAt 251).toNat = (7 : Fin 8).val ∧
    (withSp 253 (placed 250 [0x45, 0x07])).sp.toNat = (withSp 253 (placed 250 [0x45, 0x07])).pc.toNat + 3 := by decide

/-- The last PUSH whose next fetch is in range, and the last PUSH that can be fetched. -/
theorem witness_NextFetchSeesThePushedByte_top :
    (placed 251 [0x45, 0x07]).pc.toNat = 251 ∧ (withSp 254 (placed 251 [0x45, 0x07])).sp.toNat = 251 + 3 ∧
    (placed 253 [0x45, 0x07]).fetchable ∧ (withSp 256 (placed 253 [0x45, 0x07])).sp.toNat = 253 + 3 := by decide

theorem witness_EqualReadsAreEqualMemories : Memory.wf [(0, 1), (255, 2)] = true ∧ Memory.wf (cells 0 [1, 0, 3]) = true := by decide

theorem witness_ResetMeetsTheInvariant : Memory.wf [(0, 0x82), (255, 1)] = true := by decide

theorem witness_StepKeepsTheInvariant : Inv State.reset ∧ nextIs (step State.reset) (fun _ => true) = true :=
  ⟨⟨by decide, by decide, by decide, by decide, by decide⟩, by decide⟩

theorem witness_LoadWritesExactlyItsBytes :
    (0 : Int) ≤ 254 ∧ (254 : Int) + ([1, 2] : List Byte).length ≤ 256 ∧
    (∃ k : Nat, k < ([1, 2] : List Byte).length ∧ ((255 : Int) + k < 0 ∨ (255 : Int) < 255 + k)) ∧
    (∃ k : Nat, k < ([1, 2] : List Byte).length ∧ ((-1 : Int) + k < 0 ∨ (255 : Int) < -1 + k)) :=
  ⟨by decide, by decide, ⟨1, by decide, by decide⟩, ⟨0, by decide, by decide⟩⟩

theorem witness_LoadKeepsTheInvariant :
    Inv State.reset ∧ (match load [0x82] 255 State.reset with
      | .ok t => decide (t.byteAt 255 = 0x82)
      | .error _ => false) = true :=
  ⟨⟨by decide, by decide, by decide, by decide, by decide⟩, by decide⟩

theorem witness_RunAnswerDoesNotDependOnFuel : runFor 0 { State.reset with run := .halted } = some (.halted, { State.reset with run := .halted }) :=
  rfl

/-- An HLT as the whole program: it boots, and one step of fuel ends its run. -/
theorem witness_NoRunEndsInUnsupportedAluOperation :
    (match boot (Vector.replicate 8 0) [] [0x01] with
      | .ok s => (runFor 1 s).map Prod.fst == some .halted
      | .error _ => false) = true := by decide

theorem witness_JmpToItselfNeverEnds :
    (withReg 1 253 (placed 253 [0x54, 0x01])).run = .running ∧ (withReg 1 253 (placed 253 [0x54, 0x01])).fetchable ∧
    (withReg 1 253 (placed 253 [0x54, 0x01])).byteAt 253 = 0x54 ∧
    ((withReg 1 253 (placed 253 [0x54, 0x01])).byteAt 254).toNat = (1 : Fin 8).val ∧
    (withReg 1 253 (placed 253 [0x54, 0x01])).regs[(1 : Fin 8)].toNat = (withReg 1 253 (placed 253 [0x54, 0x01])).pc.toNat := by decide

theorem witness_PlacedWordIsWhatTheStepRuns :
    (placed 253 []).run = .running ∧ (placed 253 []).fetchable ∧ decodeTableWord 8 0x11 = some .ret := by decide

theorem witness_LoaderFailuresAreTold :
    readLine "0000000".toList = .invalid ∧ readLine "  # x".toList = .skipped ∧ readProgram none = .error .programFileNotFound := by decide

end Sys2Proof.Tests
end

section
/-! PROOFS. The opcode byte alone selects the instruction (30_encoding.md R64, R66). -/

namespace Sys2Proof

open Machine

/-- The table of R65 has a row for every operation. -/
theorem mem_opcodeTable (op : Op) : op ∈ opcodeTable := by
  cases op <;> decide

/-- The bytes R65 lists in hexadecimal are the opcodes of the decoder's table, row by row. -/
theorem legalOpcodes_eq_map_opcode : legalOpcodes = opcodeTable.map Op.opcode := rfl

/-- A byte is legal exactly when it is some operation's opcode. -/
theorem mem_legalOpcodes_iff {ir : Byte} : ir ∈ legalOpcodes ↔ ∃ op : Op, op.opcode = ir := by
  simp only [legalOpcodes_eq_map_opcode, List.mem_map, mem_opcodeTable, true_and]

/-- No two rows of R65 share an opcode: looking the opcode up gives the operation back. -/
theorem Op.opcode_injective : Function.Injective Op.opcode := fun op op' h =>
  Option.some.inj <| by rw [← lookupOpcode_opcode op, h, lookupOpcode_opcode]

/-- Legality of the opcode byte decides whether the bytes decode (R64). -/
theorem exists_decode_eq_ok_iff (ir a b : Byte) : (∃ i, decode ir a b = .ok i) ↔ ir ∈ legalOpcodes := by
  rw [mem_legalOpcodes_iff]
  constructor
  · rintro ⟨i, hi⟩
    obtain ⟨op, hop, -⟩ := (decode_eq_ok_iff ir a b i).1 hi
    exact ⟨op, hop⟩
  · rintro ⟨op, hop⟩
    exact ⟨op.instr a b, (decode_eq_ok_iff ir a b _).2 ⟨op, hop, rfl⟩⟩

/-- The decoded instruction's opcode is the whole byte that was decoded (R64). -/
theorem opcode_of_decode_eq_ok {ir a b : Byte} {i : Instr} (h : decode ir a b = .ok i) : i.opcode = ir := by
  obtain ⟨op, hop, rfl⟩ := (decode_eq_ok_iff ir a b i).1 h
  rw [Instr.opcode, Op.op_instr, hop]

/-- Every illegal byte is rejected by name, whatever its operand bytes (R66). -/
theorem decode_of_not_mem_legalOpcodes {ir : Byte} (a b : Byte) (h : ir ∉ legalOpcodes) :
    decode ir a b = .error (.unknownOpcode ir) :=
  (decode_eq_error_iff ir a b _).2 ⟨rfl, fun op hop => h (mem_legalOpcodes_iff.2 ⟨op, hop⟩)⟩

/-- Equal opcode bytes select the same operation, whatever the operand bytes (R64). -/
theorem op_eq_of_decode_eq_ok {ir a b a' b' : Byte} {i j : Instr} (hi : decode ir a b = .ok i)
    (hj : decode ir a' b' = .ok j) : i.op = j.op :=
  Op.opcode_injective ((opcode_of_decode_eq_ok hi).trans (opcode_of_decode_eq_ok hj).symm)

/-- Settles O3: the lookup compares the byte with the rows of R65 and their opcodes differ, so the byte alone finds at most one row. -/
theorem decodeComparesTheWholeOpcodeByte : Obligations.DecodeComparesTheWholeOpcodeByte := fun ir a b =>
  ⟨exists_decode_eq_ok_iff ir a b,
    fun _ => opcode_of_decode_eq_ok,
    decode_of_not_mem_legalOpcodes a b,
    fun _ _ _ _ => op_eq_of_decode_eq_ok⟩

end Sys2Proof
end

section
/-! PROOFS. The run state alone enables a step (40_cycle.md R81). -/

namespace Sys2Proof.Machine

/-- Executing an instruction never stops the machine: an error is a next state too (R156, log 5). -/
theorem exists_exec_eq_next (i : Instr) (s : State) : ∃ t, exec i s = .next t := by
  obtain ⟨r, hx⟩ := exec_eq_finish i s
  obtain ⟨t, -, ht⟩ | ⟨e, -, he⟩ := finish_cases s r
  · exact ⟨t, hx.trans ht⟩
  · exact ⟨raise e s, hx.trans he⟩

/-- Dropping the changes of an instruction that raised leaves a next state. -/
theorem exists_keepIfFaulted_eq_next (s t : State) : ∃ u, keepIfFaulted s (.next t) = .next u := by
  by_cases hs : t.safe
  · exact ⟨t, keepIfFaulted_of_safe s hs⟩
  · obtain ⟨e, he⟩ : ∃ e, t.run = .faulted e := by simpa [State.safe] using hs
    exact ⟨raise e s, keepIfFaulted_of_faulted s he⟩

/-- What was fetched leads to a next state, whether or not its opcode byte is legal (R83, R84). -/
theorem exists_executeFetched_eq_next (s : State) : ∃ t, executeFetched exec s s.latched = .next t := by
  cases hc : s.current with
  | error r => exact ⟨_, executeFetched_of_error hc⟩
  | ok i =>
    obtain ⟨u, hu⟩ := exists_exec_eq_next i s.latched
    rw [executeFetched_of_ok hc, hu]
    exact exists_keepIfFaulted_eq_next s u

/-- A Running core takes a step, wherever its `pc` points. -/
theorem exists_step_eq_next {s : State} (hr : s.run = .running) : ∃ t, step s = .next t := by
  by_cases hf : s.fetchable
  · rw [step_of_fetchable hr hf]
    exact exists_executeFetched_eq_next s
  · obtain ⟨e, -, hs⟩ := step_of_not_fetchable hr hf
    exact ⟨raiseInFetch e s, hs⟩

end Sys2Proof.Machine

namespace Sys2Proof

/-- Settles O10: only a Running core has a next state, and from Running every branch of the cycle, errors included, ends in one. -/
theorem stepIsEnabledExactlyWhenRunning : Obligations.StepIsEnabledExactlyWhenRunning := fun _ =>
  ⟨fun ⟨_, h⟩ => (Machine.step_cases h).1, Machine.exists_step_eq_next⟩

end Sys2Proof
end

section
/-! PROOFS. LDI and PRN on a register that exists and on an index above 7 (41_data_and_io.md R101, R102). -/

namespace Sys2Proof.Machine

/-- An operand that succeeds hands its result to the rest of the instruction. -/
theorem finish_ok_bind {α : Type} (s : State) (x : α) (rest : α → Except FatalError State) :
    finish s (.ok x >>= rest) = finish s (rest x) := rfl

/-- An operand that raises ends the instruction, whatever was to follow (R156). -/
theorem finish_error_bind {α : Type} (s : State) (e : FatalError) (rest : α → Except FatalError State) :
    finish s (.error e >>= rest) = .next (raise e s) := rfl

/-- Reading an index above 7 ends the instruction with the register error and no other change (R22, R156). -/
theorem finish_readReg_of_gt {i : Byte} (s : State) (rest : Byte → Except FatalError State) (h : 7 < i.toNat) :
    finish s (readReg i s >>= rest) = .next (s.badRegister i) := by
  rw [readReg_of_ge s (by omega), finish_error_bind]
  rfl

/-- Writing an index above 7 ends the instruction with the register error and no other change (R22, R156). -/
theorem finish_writeReg_of_gt {i : Byte} (v : Nat) (s : State) (rest : State → Except FatalError State) (h : 7 < i.toNat) :
    finish s (writeReg i v s >>= rest) = .next (s.badRegister i) := by
  rw [writeReg_of_ge v s (by omega), finish_error_bind]
  rfl

/-- The masking of a register write leaves a byte as it is (R21). -/
theorem writeReg_toNat_of_lt {i : Byte} (v : Byte) (s : State) (h : i.toNat < 8) :
    writeReg i v.toNat s = .ok { s with regs := s.regs.set i.toNat v } := by
  rw [writeReg_of_lt v.toNat s h, BitVec.ofNat_toNat, BitVec.setWidth_eq]

/-- What register `r` holds after `v` is written to the register `i` names. -/
theorem getElem_regs_set (regs : Vector Byte 8) {i : Byte} (v : Byte) (h : i.toNat < 8) (r : Fin 8) :
    (regs.set i.toNat v)[r] = if r.val = i.toNat then v else regs[r] := by
  simp only [Fin.getElem_fin, Vector.getElem_set, eq_comm]

/-- LDI is a register write of the immediate and an advance (R101). -/
theorem exec_ldi (a imm : Byte) (s : State) :
    exec (.ldi a imm) s = finish s (writeReg a imm.toNat s >>= fun t => .ok (advance .ldi t)) := rfl

/-- PRN is a register read, one output event and an advance (R102). -/
theorem exec_prn (a : Byte) (s : State) :
    exec (.prn a) s = finish s (readReg a s >>= fun v => .ok (advance .prn (emit v s))) := rfl

theorem exec_ldi_of_lt {a : Byte} (imm : Byte) (s : State) (h : a.toNat < 8) :
    exec (.ldi a imm) s = .next { s with regs := s.regs.set a.toNat imm, pc := s.pc + 3 } := by
  rw [exec_ldi, writeReg_toNat_of_lt imm s h, finish_ok_bind]
  rfl

theorem exec_prn_of_lt {a : Byte} (s : State) (h : a.toNat < 8) :
    exec (.prn a) s = .next { s with output := s.output ++ [s.regs[a.toNat]], pc := s.pc + 2 } := by
  rw [exec_prn, readReg_of_lt s h, finish_ok_bind]
  rfl

end Sys2Proof.Machine

namespace Sys2Proof

open Machine

/-- Settles O19: LDI is one register write, which stores the immediate or raises for the index. -/
theorem ldiLoadsTheImmediate : Obligations.LdiLoadsTheImmediate := by
  refine fun a imm s => ⟨rfl, fun ha => ?_, fun ha => ?_⟩
  · have hlt : a.toNat < 8 := by omega
    exact ⟨s.regs.set a.toNat imm, exec_ldi_of_lt imm s hlt, getElem_regs_set s.regs imm hlt⟩
  · rw [exec_ldi, finish_writeReg_of_gt imm.toNat s _ ha]

/-- Settles O20: PRN reads its register before it emits, so an index above 7 raises with the output record as it was. -/
theorem prnDeliversTheRegister : Obligations.PrnDeliversTheRegister := by
  refine fun a s => ⟨rfl, fun x hx => ?_, fun ha => ?_⟩
  · rw [exec_prn_of_lt s (hx.trans_lt x.isLt)]
    simp only [hx, Fin.getElem_fin]
  · rw [exec_prn, finish_readReg_of_gt s _ ha]

end Sys2Proof
end

section
/-! PROOFS. MUL and ADD on two registers that exist and on the first index above 7 (42_alu.md R110, R111, R113). -/

namespace Sys2Proof.Machine

/-- The first index above 7 ends an ALU instruction with the register error and no other change, whatever the second (R157, R156). -/
theorem finish_alu_of_gt_left {op : Op} {a : Byte} (b : Byte) (s : State) (rest : State → Except FatalError State)
    (hop : op = .mul ∨ op = .add ∨ op = .cmp) (ha : 7 < a.toNat) :
    finish s (alu op a b s >>= rest) = .next (s.badRegister a) := by
  rw [alu_of_ge_left b s hop (by omega), finish_error_bind]
  rfl

/-- A second index above 7 raises once the first has passed its check (R157, R156). -/
theorem finish_alu_of_gt_right {op : Op} {a b : Byte} (s : State) (rest : State → Except FatalError State)
    (hop : op = .mul ∨ op = .add ∨ op = .cmp) (ha : a.toNat ≤ 7) (hb : 7 < b.toNat) :
    finish s (alu op a b s >>= rest) = .next (s.badRegister b) := by
  rw [alu_of_ge_right s hop (by omega) (by omega), finish_error_bind]
  rfl

/-- MUL is the ALU's multiplication and an advance (R110). -/
theorem exec_mul (a b : Byte) (s : State) :
    exec (.mul a b) s = finish s (alu .mul a b s >>= fun t => .ok (advance .mul t)) := rfl

/-- ADD is the ALU's addition and an advance (R111). -/
theorem exec_add (a b : Byte) (s : State) :
    exec (.add a b) s = finish s (alu .add a b s >>= fun t => .ok (advance .add t)) := rfl

theorem exec_mul_of_eq {a b : Byte} {x y : Fin 8} (s : State) (hx : a.toNat = x.val) (hy : b.toNat = y.val) :
    exec (.mul a b) s = .next { s with
      regs := s.regs.set x.val (BitVec.ofNat 8 (s.regs[x].toNat * s.regs[y].toNat)), pc := s.pc + 3 } := by
  rw [exec_mul, alu_of_lt s (hx.trans_lt x.isLt) (hy.trans_lt y.isLt), finish_ok_bind]
  simp only [hx, hy]
  rfl

theorem exec_add_of_eq {a b : Byte} {x y : Fin 8} (s : State) (hx : a.toNat = x.val) (hy : b.toNat = y.val) :
    exec (.add a b) s = .next { s with
      regs := s.regs.set x.val (BitVec.ofNat 8 (s.regs[x].toNat + s.regs[y].toNat)), pc := s.pc + 3 } := by
  rw [exec_add, alu_of_lt s (hx.trans_lt x.isLt) (hy.trans_lt y.isLt), finish_ok_bind]
  simp only [hx, hy]
  rfl

/-- A register write keeps the low byte of the exact result, and the other registers (R21, R113). -/
theorem regs_set_ofNat (regs : Vector Byte 8) (x : Fin 8) (v : Nat) :
    (regs.set x.val (BitVec.ofNat 8 v))[x].toNat = v % 256 ∧
    ∀ r : Fin 8, r ≠ x → (regs.set x.val (BitVec.ofNat 8 v))[r] = regs[r] := by
  constructor
  · rw [Fin.getElem_fin, Vector.getElem_set_self, BitVec.toNat_ofNat]
  · exact fun r hr => Vector.getElem_set_ne x.isLt r.isLt (Fin.val_ne_of_ne hr.symm)

end Sys2Proof.Machine

namespace Sys2Proof

open Machine

/-- Settles O21: MUL hands the exact product of the two bytes to a register write, which masks it. -/
theorem mulWritesTheProductMod256 : Obligations.MulWritesTheProductMod256 := by
  refine fun a b s => ⟨rfl, fun x y hx hy => ?_, fun ha => ?_, fun ha hb => ?_⟩
  · exact ⟨_, exec_mul_of_eq s hx hy, regs_set_ofNat s.regs x _⟩
  · exact finish_alu_of_gt_left b s _ (.inl rfl) ha
  · exact finish_alu_of_gt_right s _ (.inl rfl) ha hb

/-- Settles O22: ADD hands the exact sum of the two bytes to a register write, which masks it. -/
theorem addWritesTheSumMod256 : Obligations.AddWritesTheSumMod256 := by
  refine fun a b s => ⟨rfl, fun x y hx hy => ?_, fun ha => ?_, fun ha hb => ?_⟩
  · exact ⟨_, exec_add_of_eq s hx hy, regs_set_ofNat s.regs x _⟩
  · exact finish_alu_of_gt_left b s _ (.inr (.inl rfl)) ha
  · exact finish_alu_of_gt_right s _ (.inr (.inl rfl)) ha hb

end Sys2Proof
end

section
/-! PROOFS. PUSH with room on the stack, on an index above 7, and with no room (43_stack.md R120, R122). -/

namespace Sys2Proof.Machine

/-- A push with no room ends the instruction with the memory error and no other change (R120, R156). -/
theorem finish_push_of_no_room (v : Byte) (s : State) (rest : State → Except FatalError State)
    (h : s.sp.toNat = 0 ∨ 256 < s.sp.toNat) :
    finish s (push v s >>= rest) = .next (s.badAddress ((s.sp.toNat : Int) - 1)) := by
  rw [push_of_no_room v s h, finish_error_bind]
  rfl

/-- PUSH is a register read, a push of the byte read and an advance (R122). -/
theorem exec_push (a : Byte) (s : State) :
    exec (.push a) s = finish s (readReg a s >>= fun v => push v s >>= fun t => .ok (advance .push t)) := rfl

theorem exec_push_of_lt {a : Byte} (s : State) (ha : a.toNat < 8) :
    exec (.push a) s = finish s (push s.regs[a.toNat] s >>= fun t => .ok (advance .push t)) := by
  rw [exec_push, readReg_of_lt s ha, finish_ok_bind]

theorem exec_push_of_room {a : Byte} {x : Fin 8} (s : State) (hx : a.toNat = x.val) (h : 1 ≤ s.sp.toNat)
    (h' : s.sp.toNat ≤ 256) :
    exec (.push a) s = .next { s with
      mem := s.mem.set (s.sp.toNat - 1) s.regs[x], sp := s.sp - 1, pc := s.pc + 2 } := by
  rw [exec_push_of_lt s (hx.trans_lt x.isLt), push_of_room _ s h h', finish_ok_bind]
  simp only [hx]
  rfl

end Sys2Proof.Machine

namespace Sys2Proof

open Machine

/-- Settles O24: PUSH hands its register to a push, which is one memory write at `sp - 1`; the register is read first, so its index
raises before a push with no room does. -/
theorem pushStoresBelowTheStackPointer : Obligations.PushStoresBelowTheStackPointer := by
  refine fun a s => ⟨rfl, fun x hx h h' => ?_, fun ha => ?_, fun ha hsp => ?_⟩
  · exact ⟨_, exec_push_of_room s hx h h', Memory.get_set_self .., fun k hk => Memory.get_set_ne s.mem _ hk⟩
  · exact finish_readReg_of_gt s _ ha
  · rw [exec_push_of_lt s (by omega), finish_push_of_no_room _ s _ hsp]

end Sys2Proof
end

section
/-! PROOFS. RET with `sp` at an address and with `sp` past the top of memory (44_control_flow.md R131, 43_stack.md R121). -/

namespace Sys2Proof.Machine

/-- A pop past the top of memory ends the instruction with the memory error and no other change (R121, R156). -/
theorem finish_pop_of_outside (s : State) (rest : Byte × State → Except FatalError State) (h : 255 < s.sp.toNat) :
    finish s (pop s >>= rest) = .next (s.badAddress (s.sp.toNat : Int)) := by
  rw [pop_of_outside s h, finish_error_bind]
  rfl

/-- RET is a pop and a jump to the byte popped (R131). -/
theorem exec_ret (s : State) : exec .ret s = finish s (pop s >>= fun p => .ok (jumpTo p.1 p.2)) := rfl

theorem exec_ret_of_inside (s : State) (h : s.sp.toNat ≤ 255) :
    exec .ret s = .next { s with sp := s.sp + 1, pc := (s.mem.get s.sp.toNat).setWidth 9 } := by
  rw [exec_ret, pop_of_inside s h, finish_ok_bind]
  rfl

end Sys2Proof.Machine

namespace Sys2Proof

open Machine

/-- Settles O27: RET hands whatever byte the pop reads to an unchecked jump, and only the pop can raise. -/
theorem retJumpsToThePoppedByte : Obligations.RetJumpsToThePoppedByte := by
  refine ⟨rfl, fun s => ⟨exec_ret_of_inside s, fun h => ?_⟩⟩
  rw [exec_ret, finish_pop_of_outside s _ h]

end Sys2Proof
end

section
/-! PROOFS. The encoding and the decoder give each other back (30_encoding.md R60 to R63, R65, R67). -/

namespace Sys2Proof

open Machine

/-- The encoding starts with the instruction's opcode byte and has its length, for every instruction. -/
theorem encodedForm : ∀ i : Instr, Laws.EncodedForm.Statement i
  | .hlt => Laws.EncodedForm.hlt
  | .ldi a imm => Laws.EncodedForm.ldi a imm
  | .prn a => Laws.EncodedForm.prn a
  | .mul a b => Laws.EncodedForm.mul a b
  | .add a b => Laws.EncodedForm.add a b
  | .cmp a b => Laws.EncodedForm.cmp a b
  | .push a => Laws.EncodedForm.push a
  | .pop a => Laws.EncodedForm.pop a
  | .call a => Laws.EncodedForm.call a
  | .ret => Laws.EncodedForm.ret
  | .jmp a => Laws.EncodedForm.jmp a
  | .jeq a => Laws.EncodedForm.jeq a
  | .jne a => Laws.EncodedForm.jne a

theorem length_encode (i : Instr) : (encode i).length = i.length := (encodedForm i).2

/-- A row's opcode selects that row, whatever the operand bytes (R64). -/
theorem decode_opcode (op : Op) (a b : Byte) : decode op.opcode a b = .ok (op.instr a b) :=
  (decode_eq_ok_iff _ a b _).2 ⟨op, rfl, rfl⟩

/-- The three bytes a fetch reads at an encoded instruction: its opcode byte and two that give its operands back, be they its own or
what follows it in memory (R60, R62). -/
theorem encode_append_eq (i : Instr) (x y : Byte) :
    ∃ a b rest, encode i ++ [x, y] = i.opcode :: a :: b :: rest ∧ i.op.instr a b = i := by
  cases i <;> exact ⟨_, _, _, rfl, rfl⟩

/-- The bytes of a row's instruction begin with its encoding (R60). -/
theorem encode_instr_prefix (op : Op) (a b : Byte) : encode (op.instr a b) <+: [op.opcode, a, b] := by
  cases op with
  | hlt | ret => exact ⟨[a, b], rfl⟩
  | ldi | mul | add | cmp => exact ⟨[], rfl⟩
  | prn | push | pop | call | jmp | jeq | jne => exact ⟨[b], rfl⟩

/-- Bytes that decode to `i` begin with its encoding. -/
theorem encode_prefix_of_decode_eq_ok {ir a b : Byte} {i : Instr} (h : decode ir a b = .ok i) : encode i <+: [ir, a, b] := by
  obtain ⟨op, rfl, rfl⟩ := (decode_eq_ok_iff ir a b i).1 h
  exact encode_instr_prefix op a b

/-- The operand bytes beyond a row's length have no effect (R62). -/
theorem Op.instr_congr {op : Op} {a b a' b' : Byte} (ha : 2 ≤ op.length → a' = a) (hb : 3 ≤ op.length → b' = b) :
    op.instr a' b' = op.instr a b := by
  cases op with
  | hlt | ret => rfl
  | ldi | mul | add | cmp => rw [ha (by decide), hb (by decide)]
  | prn | push | pop | call | jmp | jeq | jne => rw [ha (by decide)]; rfl

/-- The pattern of R67, row by row: bits 7:6 count the operand bytes, bit 5 marks the ALU rows and bit 4 those that assign `pc`. -/
theorem Op.opcode_pattern (op : Op) :
    op.opcode.toNat / 64 + 1 = op.length ∧
    (op.opcode[5] = true ↔ op ∈ [Op.mul, Op.add, Op.cmp]) ∧
    (op.opcode[4] = true ↔ op ∈ [Op.call, Op.ret, Op.jmp, Op.jeq, Op.jne]) := by
  cases op <;> decide

/-- Settles O1: the encoding starts with the opcode byte, which selects the instruction's row, and the next two bytes give that row's
operands back. -/
theorem decodeAfterEncodeIsIdentity : Obligations.DecodeAfterEncodeIsIdentity := by
  intro i x y
  obtain ⟨a, b, rest, hbytes, hi⟩ := encode_append_eq i x y
  exact ⟨i.opcode, a, b, rest, hbytes, (decode_opcode i.op a b).trans (congrArg _ hi)⟩

/-- Settles O2: decoding picks the row whose opcode is the first byte, and that row's encoding is those bytes up to its length. -/
theorem decodedBytesBeginWithTheEncoding : Obligations.DecodedBytesBeginWithTheEncoding :=
  fun _ _ _ i h => ⟨encode_prefix_of_decode_eq_ok h, length_encode i⟩

/-- Settles O4: in each word the first byte is the opcode of one row, and in the last of none. -/
theorem writtenOutWordsDecode : Obligations.WrittenOutWordsDecode :=
  ⟨decode_opcode .ldi 0 8, decode_opcode .prn 0 1, decode_opcode .hlt 255 17, decode_opcode .add 2 5, decode_opcode .cmp 1 200,
    decode_opcode .pop 3 0, decode_opcode .jne 5 71, decode_of_not_mem_legalOpcodes 0 0 (by decide)⟩

/-- Settles O5: the pattern depends on the operation alone, and holds in each of the 13 rows. -/
theorem opcodeBitPattern : Obligations.OpcodeBitPattern := fun i => by
  rw [length_encode]
  exact Op.opcode_pattern i.op

/-- Settles O6: the opcode byte selects the same row, whose instruction uses only the operand bytes within its length. -/
theorem unusedOperandBytesDoNotMatter : Obligations.UnusedOperandBytesDoNotMatter := by
  intro ir a b a' b' i h ha hb
  obtain ⟨op, rfl, rfl⟩ := (decode_eq_ok_iff ir a b i).1 h
  rw [Instr.length, Op.op_instr] at ha hb
  rw [decode_opcode, Op.instr_congr ha hb]

end Sys2Proof
end

section
/-! PROOFS. HLT, and the ALU on an operation that is none of its own (41_data_and_io.md R100; 40_cycle.md R86). -/

namespace Sys2Proof

open Machine

/-- Settles O16: the ALU computes in the rows of ADD, MUL and CMP only, and reads no register in another. -/
theorem aluRejectsOtherOperations : Obligations.AluRejectsOtherOperations := by
  intro op a b s hop
  cases op with
  | add | mul | cmp => exact absurd hop (by decide)
  | hlt | ldi | prn | push | pop | call | ret | jmp | jeq | jne => rfl

/-- Settles O18: HLT is `halt` alone, with no advance of `pc`. -/
theorem hltHaltsInPlace : Obligations.HltHaltsInPlace := ⟨rfl, fun _ => rfl⟩

end Sys2Proof
end

section
/-! PROOFS. CMP on two registers that exist and on the first index above 7 (42_alu.md R112). -/

namespace Sys2Proof.Machine

/-- CMP is the ALU's comparison and an advance (R112). -/
theorem exec_cmp (a b : Byte) (s : State) :
    exec (.cmp a b) s = finish s (alu .cmp a b s >>= fun t => .ok (advance .cmp t)) := rfl

theorem exec_cmp_of_eq {a b : Byte} {x y : Fin 8} (s : State) (hx : a.toNat = x.val) (hy : b.toNat = y.val) :
    exec (.cmp a b) s = .next { s with fl := compareFlags s.regs[x] s.regs[y], pc := s.pc + 3 } := by
  rw [exec_cmp, alu_of_lt s (hx.trans_lt x.isLt) (hy.trans_lt y.isLt), finish_ok_bind]
  simp only [hx, hy]
  rfl

/-- The unsigned order of two bytes names the flag a comparison sets (R112, D21). -/
theorem compareFlags_of_order (va vb : Byte) :
    (va.toNat = vb.toNat → compareFlags va vb = 0x01) ∧
    (va.toNat < vb.toNat → compareFlags va vb = 0x04) ∧
    (vb.toNat < va.toNat → compareFlags va vb = 0x02) := by
  obtain ⟨rfl, hfl⟩ | ⟨hlt, hfl⟩ | ⟨hgt, hfl⟩ := compareFlags_cases va vb
  · exact ⟨fun _ => hfl, fun h => absurd h (Nat.lt_irrefl _), fun h => absurd h (Nat.lt_irrefl _)⟩
  · exact ⟨fun h => absurd h hlt.ne, fun _ => hfl, fun h => absurd h hlt.asymm⟩
  · exact ⟨fun h => absurd h hgt.ne', fun h => absurd h hgt.asymm, fun _ => hfl⟩

end Sys2Proof.Machine

namespace Sys2Proof

open Machine

/-- Settles O23: CMP stores the flags of one unsigned comparison, whose three cases exclude each other. -/
theorem cmpSetsExactlyOneFlag : Obligations.CmpSetsExactlyOneFlag := by
  refine fun a b s => ⟨rfl, fun x y hx hy => ?_, fun ha => ?_, fun ha hb => ?_⟩
  · exact ⟨_, exec_cmp_of_eq s hx hy, compareFlags_of_order _ _⟩
  · exact finish_alu_of_gt_left b s _ (.inr (.inr rfl)) ha
  · exact finish_alu_of_gt_right s _ (.inr (.inr rfl)) ha hb

end Sys2Proof
end

section
/-! PROOFS. POP with `sp` at an address, on an index above 7, and with `sp` past the top of memory (43_stack.md R121, R123). -/

namespace Sys2Proof.Machine

/-- POP is an index check, a pop, a register write of the byte popped and an advance (R123). -/
theorem exec_pop (a : Byte) (s : State) :
    exec (.pop a) s = finish s (checkReg a s >>= fun _ => pop s >>= fun p =>
      writeReg a p.1.toNat p.2 >>= fun t => .ok (advance .pop t)) := rfl

/-- Checking an index above 7 ends the instruction with the register error and no other change (R22, R156). -/
theorem finish_checkReg_of_gt {i : Byte} (s : State) (rest : Unit → Except FatalError State) (h : 7 < i.toNat) :
    finish s (checkReg i s >>= rest) = .next (s.badRegister i) := by
  rw [checkReg_of_ge s (by omega), finish_error_bind]
  rfl

theorem exec_pop_of_outside {a : Byte} (s : State) (ha : a.toNat < 8) (h : 255 < s.sp.toNat) :
    exec (.pop a) s = .next (s.badAddress (s.sp.toNat : Int)) := by
  rw [exec_pop, checkReg_of_lt s ha, finish_ok_bind, finish_pop_of_outside s _ h]

theorem exec_pop_of_inside {a : Byte} (s : State) (ha : a.toNat < 8) (h : s.sp.toNat ≤ 255) :
    exec (.pop a) s = .next { s with
      regs := s.regs.set a.toNat (s.mem.get s.sp.toNat), sp := s.sp + 1, pc := s.pc + 2 } := by
  rw [exec_pop, checkReg_of_lt s ha, finish_ok_bind, pop_of_inside s h, finish_ok_bind, writeReg_toNat_of_lt _ _ ha,
    finish_ok_bind]
  rfl

end Sys2Proof.Machine

namespace Sys2Proof

open Machine

/-- Settles O25: POP checks its index, then pops, and writes the byte popped to the register the index names. -/
theorem popLoadsTheTopOfStack : Obligations.PopLoadsTheTopOfStack := by
  refine fun a s => ⟨rfl, fun x hx h => ?_, fun ha => ?_, fun ha h => exec_pop_of_outside s (by omega) h⟩
  · have hset := getElem_regs_set s.regs (s.mem.get s.sp.toNat) (hx.trans_lt x.isLt)
    refine ⟨_, exec_pop_of_inside s (hx.trans_lt x.isLt) h, ?_, fun r hr => ?_⟩
    · rw [hset, if_pos hx.symm]
    · rw [hset, if_neg fun h' => hr (Fin.ext (h'.trans hx))]
  · exact finish_checkReg_of_gt s _ ha

end Sys2Proof
end

section
/-! PROOFS. CALL and the jumps: taken, not taken, on an index above 7, and a CALL with no room on the stack (44_control_flow.md R130,
R132 to R135). -/

namespace Sys2Proof.Machine

/-- CALL is a register read, a push of the return address and a jump to the byte read (R130). -/
theorem exec_call (a : Byte) (s : State) :
    exec (.call a) s = finish s (readReg a s >>= fun target => push (returnAddress s) s >>= fun t => .ok (jumpTo target t)) := rfl

/-- JMP is a register read and a jump to the byte read (R132). -/
theorem exec_jmp (a : Byte) (s : State) : exec (.jmp a) s = finish s (readReg a s >>= fun target => .ok (jumpTo target s)) := rfl

/-- JEQ with E set is a JMP (R133). -/
theorem exec_jeq_of_equal (a : Byte) {s : State} (h : s.fl[0] = true) : exec (.jeq a) s = exec (.jmp a) s := by
  simp [exec, execJeq, execJmp, equalSet, flagE, h]

/-- JEQ with E clear is an advance, whatever its operand (R133, D9). -/
theorem exec_jeq_of_not_equal (a : Byte) {s : State} (h : s.fl[0] = false) : exec (.jeq a) s = .next (advance .jeq s) := by
  simp [exec, execJeq, equalSet, flagE, h]

/-- JNE with E set is an advance, whatever its operand (R134, D9). -/
theorem exec_jne_of_equal (a : Byte) {s : State} (h : s.fl[0] = true) : exec (.jne a) s = .next (advance .jne s) := by
  simp [exec, execJne, equalSet, flagE, h]

/-- JNE with E clear is a JMP (R134). -/
theorem exec_jne_of_not_equal (a : Byte) {s : State} (h : s.fl[0] = false) : exec (.jne a) s = exec (.jmp a) s := by
  simp [exec, execJne, execJmp, equalSet, flagE, h]

theorem exec_call_of_lt {a : Byte} (s : State) (ha : a.toNat < 8) :
    exec (.call a) s = finish s (push (returnAddress s) s >>= fun t => .ok (jumpTo s.regs[a.toNat] t)) := by
  rw [exec_call, readReg_of_lt s ha, finish_ok_bind]

theorem exec_call_of_room {a : Byte} {x : Fin 8} (s : State) (hx : a.toNat = x.val) (h : 1 ≤ s.sp.toNat)
    (h' : s.sp.toNat ≤ 256) :
    exec (.call a) s = .next { s with
      mem := s.mem.set (s.sp.toNat - 1) (returnAddress s), sp := s.sp - 1, pc := s.regs[x].setWidth 9 } := by
  rw [exec_call_of_lt s (hx.trans_lt x.isLt), push_of_room _ s h h', finish_ok_bind]
  simp only [hx]
  rfl

theorem exec_jmp_of_eq {a : Byte} {x : Fin 8} (s : State) (hx : a.toNat = x.val) :
    exec (.jmp a) s = .next { s with pc := s.regs[x].setWidth 9 } := by
  rw [exec_jmp, readReg_of_lt s (hx.trans_lt x.isLt), finish_ok_bind]
  simp only [hx]
  rfl

theorem exec_jmp_of_gt {a : Byte} (s : State) (ha : 7 < a.toNat) : exec (.jmp a) s = .next (s.badRegister a) :=
  finish_readReg_of_gt s _ ha

/-- A byte keeps its value as a pointer (R135). -/
theorem toNat_setWidth_nine (b : Byte) : (b.setWidth 9).toNat = b.toNat := by
  rw [BitVec.toNat_setWidth, Nat.mod_eq_of_lt (by have := b.isLt; omega)]

/-- Where the fetch is in range the address after a CALL is a byte, and is pushed whole (R130). -/
theorem returnAddress_toNat (s : State) (h : s.fetchable) : (returnAddress s).toNat = s.pc.toNat + 2 := by
  unfold State.fetchable at h
  have h2 : (BitVec.ofNat 9 Op.call.length).toNat = 2 := rfl
  rw [returnAddress, BitVec.toNat_setWidth, BitVec.toNat_add, h2]
  omega

/-- A taken jump goes to the value of the register its operand names. -/
theorem exists_exec_jmp_eq_next {a : Byte} {x : Fin 8} (s : State) (hx : a.toNat = x.val) :
    ∃ p : Ptr, exec (.jmp a) s = .next { s with pc := p } ∧ p.toNat = s.regs[x].toNat :=
  ⟨_, exec_jmp_of_eq s hx, toNat_setWidth_nine _⟩

end Sys2Proof.Machine

namespace Sys2Proof

open Machine

/-- Settles O26: CALL reads its register, then makes one push of the return address, then jumps. -/
theorem callPushesTheReturnAddressAndJumps : Obligations.CallPushesTheReturnAddressAndJumps := by
  refine fun a s => ⟨rfl, fun x hx h h' => ?_, fun ha => ?_, fun ha hsp => ?_⟩
  · refine ⟨_, exec_call_of_room s hx h h', fun hf => ?_, fun k hk => Memory.get_set_ne s.mem _ hk⟩
    rw [Memory.get_set_self, returnAddress_toNat s hf]
  · exact finish_readReg_of_gt s _ ha
  · rw [exec_call_of_lt s (by omega), finish_push_of_no_room _ s _ hsp]

/-- Settles O28: JMP is one register read, and the byte read is the next `pc`, unchecked. -/
theorem jmpGoesToTheRegister : Obligations.JmpGoesToTheRegister :=
  fun _ s => ⟨rfl, fun _ hx => exists_exec_jmp_eq_next s hx, exec_jmp_of_gt s⟩

/-- Settles O29: with E set JEQ is a JMP, and otherwise an advance that reads no register. -/
theorem jeqBranchesWhenEqual : Obligations.JeqBranchesWhenEqual := by
  refine fun a s => ⟨rfl, fun x hx hE => ?_, fun ha hE => ?_, fun hE => ?_⟩
  · rw [exec_jeq_of_equal a hE]
    exact exists_exec_jmp_eq_next s hx
  · rw [exec_jeq_of_equal a hE, exec_jmp_of_gt s ha]
  · exact exec_jeq_of_not_equal a hE

/-- Settles O30: with E clear JNE is a JMP, and otherwise an advance that reads no register. -/
theorem jneBranchesWhenNotEqual : Obligations.JneBranchesWhenNotEqual := by
  refine fun a s => ⟨rfl, fun x hx hE => ?_, fun ha hE => ?_, fun hE => ?_⟩
  · rw [exec_jne_of_not_equal a hE]
    exact exists_exec_jmp_eq_next s hx
  · rw [exec_jne_of_not_equal a hE, exec_jmp_of_gt s ha]
  · exact exec_jne_of_equal a hE

end Sys2Proof
end

section
/-! PROOFS. What each instruction does, said once: the error the table of R155 gives, or the whole next state (60_exceptions.md R155 to
R157; 10_state.md). -/

namespace Sys2Proof.Machine

/-- The value of the register an operand names; 0 where it names none, which no completed instruction reads. -/
def State.reg (s : State) (i : Byte) : Byte := s.regs[i.toNat]?.getD 0

/-- The registers with `v` in the one an operand names; unchanged where it names none. -/
def State.regsWith (s : State) (i v : Byte) : Vector Byte 8 := s.regs.setIfInBounds i.toNat v

theorem State.reg_of_eq {i : Byte} {x : Fin 8} (s : State) (hx : i.toNat = x.val) : s.reg i = s.regs[x] := by
  rw [State.reg, hx, Vector.getElem?_eq_getElem x.isLt, Option.getD_some]
  rfl

theorem State.regsWith_of_lt {i : Byte} (s : State) (v : Byte) (h : i.toNat < 8) : s.regsWith i v = s.regs.set i.toNat v := by
  ext j hj
  simp only [State.regsWith, Vector.getElem_setIfInBounds, Vector.getElem_set]

theorem State.regsWith_getElem_ne {i : Byte} (s : State) (v : Byte) (r : Fin 8) (h : i.toNat ≠ r.val) :
    (s.regsWith i v)[r] = s.regs[r] :=
  Vector.getElem_setIfInBounds_ne r.isLt h

end Sys2Proof.Machine

namespace Sys2Proof

open Machine

/-- The next state of an instruction that completes. -/
def Instr.result (i : Instr) (s : State) : State :=
  match i with
  | .hlt => { s with run := .halted }
  | .ldi a imm => { s with regs := s.regsWith a imm, pc := s.pc + 3 }
  | .prn a => { s with output := s.output ++ [s.reg a], pc := s.pc + 2 }
  | .mul a b => { s with regs := s.regsWith a (BitVec.ofNat 8 ((s.reg a).toNat * (s.reg b).toNat)), pc := s.pc + 3 }
  | .add a b => { s with regs := s.regsWith a (BitVec.ofNat 8 ((s.reg a).toNat + (s.reg b).toNat)), pc := s.pc + 3 }
  | .cmp a b => { s with fl := compareFlags (s.reg a) (s.reg b), pc := s.pc + 3 }
  | .push a => { s with mem := s.mem.set (s.sp.toNat - 1) (s.reg a), sp := s.sp - 1, pc := s.pc + 2 }
  | .pop a => { s with regs := s.regsWith a (s.mem.get s.sp.toNat), sp := s.sp + 1, pc := s.pc + 2 }
  | .call a => { s with
      mem := s.mem.set (s.sp.toNat - 1) (returnAddress s), sp := s.sp - 1, pc := (s.reg a).setWidth 9 }
  | .ret => { s with sp := s.sp + 1, pc := (s.mem.get s.sp.toNat).setWidth 9 }
  | .jmp a => { s with pc := (s.reg a).setWidth 9 }
  | .jeq a => { s with pc := if s.fl[0] then (s.reg a).setWidth 9 else s.pc + 2 }
  | .jne a => { s with pc := if s.fl[0] then s.pc + 2 else (s.reg a).setWidth 9 }

/-- The state an execution ends in: its result, or, where the table of R155 gives an error, the state it started in with that error
taken (R156). -/
def Instr.outcome (i : Instr) (s : State) : State :=
  match i.errorIn s with
  | some e => raise e s
  | none => i.result s

theorem Instr.outcome_of_errorIn_eq_some {i : Instr} {s : State} {e : FatalError} (h : i.errorIn s = some e) :
    i.outcome s = raise e s := by
  rw [Instr.outcome, h]

theorem Instr.outcome_of_errorIn_eq_none {i : Instr} {s : State} (h : i.errorIn s = none) : i.outcome s = i.result s := by
  rw [Instr.outcome, h]

/-- The first register operand in use whose index is above 7 (R157). -/
def Instr.badReg (i : Instr) (s : State) : Option Byte := (i.usedRegs s).find? fun r => decide (7 < r.toNat)

theorem Instr.gt_of_badReg_eq_some {i : Instr} {s : State} {r : Byte} (h : i.badReg s = some r) : 7 < r.toNat := by
  simpa using List.find?_some h

theorem Instr.lt_of_badReg_eq_none {i : Instr} {s : State} (h : i.badReg s = none) {r : Byte} (hr : r ∈ i.usedRegs s) :
    r.toNat < 8 := by
  have := List.find?_eq_none.1 h r hr
  simp only [decide_eq_true_eq] at this
  omega

/-- Every error the table of R155 gives: the first bad register index, or, when there is none, the access outside memory (R157). -/
theorem Instr.errorIn_eq_some_iff (i : Instr) (s : State) (e : FatalError) :
    i.errorIn s = some e ↔
      (∃ r, i.badReg s = some r ∧ e = outOfRange .register (r.toNat : Int) s) ∨
      (i.badReg s = none ∧ ∃ addr, i.accessed s = some addr ∧ (addr < 0 ∨ 255 < addr) ∧ e = outOfRange .memory addr s) := by
  unfold Instr.errorIn Instr.badReg
  cases (i.usedRegs s).find? fun r => decide (7 < r.toNat) with
  | some r => simp [outOfRange, eq_comm]
  | none =>
    cases i.accessed s with
    | none => simp
    | some addr =>
      by_cases hin : 0 ≤ addr ∧ addr ≤ 255
      · simp [hin]
      · have hout : addr < 0 ∨ 255 < addr := by omega
        simp [hin, hout, outOfRange, eq_comm]

/-- The table of R155 gives no error when the register operands in use exist and the access, if any, is to memory. -/
theorem Instr.errorIn_eq_none_iff (i : Instr) (s : State) :
    i.errorIn s = none ↔ i.badReg s = none ∧ ∀ addr, i.accessed s = some addr → 0 ≤ addr ∧ addr ≤ 255 := by
  unfold Instr.errorIn Instr.badReg
  cases (i.usedRegs s).find? fun r => decide (7 < r.toNat) with
  | some r => simp
  | none => cases i.accessed s <;> simp

theorem Instr.outcome_of_badReg {i : Instr} {s : State} {r : Byte} (h : i.badReg s = some r) : i.outcome s = s.badRegister r :=
  Instr.outcome_of_errorIn_eq_some ((i.errorIn_eq_some_iff s _).2 (.inl ⟨r, h, rfl⟩))

theorem Instr.outcome_of_outside {i : Instr} {s : State} {addr : Int} (h : i.badReg s = none)
    (hacc : i.accessed s = some addr) (hout : addr < 0 ∨ 255 < addr) : i.outcome s = s.badAddress addr :=
  Instr.outcome_of_errorIn_eq_some ((i.errorIn_eq_some_iff s _).2 (.inr ⟨h, addr, hacc, hout, rfl⟩))

theorem Instr.outcome_of_inside {i : Instr} {s : State} (h : i.badReg s = none)
    (hin : ∀ addr, i.accessed s = some addr → 0 ≤ addr ∧ addr ≤ 255) : i.outcome s = i.result s :=
  Instr.outcome_of_errorIn_eq_none ((i.errorIn_eq_none_iff s).2 ⟨h, hin⟩)

theorem Instr.badReg_of_one {i : Instr} {s : State} {a : Byte} (hu : i.usedRegs s = [a]) :
    i.badReg s = if 7 < a.toNat then some a else none := by
  by_cases ha : 7 < a.toNat <;> simp [Instr.badReg, hu, ha]

/-- Index `a` is checked before `b` (R157). -/
theorem Instr.badReg_of_two {i : Instr} {s : State} {a b : Byte} (hu : i.usedRegs s = [a, b]) :
    i.badReg s = if 7 < a.toNat then some a else if 7 < b.toNat then some b else none := by
  by_cases ha : 7 < a.toNat <;> by_cases hb : 7 < b.toNat <;> simp [Instr.badReg, hu, ha, hb]

/-- An instruction of one register operand: its index is checked, then the access if there is one. -/
theorem exec_eq_outcome_of_one {i : Instr} {s : State} {a : Byte} (hu : i.usedRegs s = [a])
    (hbad : 7 < a.toNat → exec i s = .next (s.badRegister a))
    (hout : a.toNat < 8 → ∀ addr, i.accessed s = some addr → addr < 0 ∨ 255 < addr → exec i s = .next (s.badAddress addr))
    (hok : ∀ x : Fin 8, a.toNat = x.val → (∀ addr, i.accessed s = some addr → 0 ≤ addr ∧ addr ≤ 255) →
      exec i s = .next (i.result s)) :
    exec i s = .next (i.outcome s) := by
  by_cases ha : 7 < a.toNat
  · rw [Instr.outcome_of_badReg ((Instr.badReg_of_one hu).trans (if_pos ha)), hbad ha]
  · have hr := (Instr.badReg_of_one hu).trans (if_neg ha)
    by_cases hin : ∀ addr, i.accessed s = some addr → 0 ≤ addr ∧ addr ≤ 255
    · rw [Instr.outcome_of_inside hr hin, hok ⟨a.toNat, by omega⟩ rfl hin]
    · obtain ⟨addr, hacc, hrange⟩ : ∃ addr, i.accessed s = some addr ∧ ¬(0 ≤ addr ∧ addr ≤ 255) := by simpa using hin
      rw [Instr.outcome_of_outside hr hacc (by omega), hout (by omega) addr hacc (by omega)]

/-- An instruction of one register operand and no access. -/
theorem exec_eq_outcome_of_one_only {i : Instr} {s : State} {a : Byte} (hu : i.usedRegs s = [a]) (hacc : i.accessed s = none)
    (hbad : 7 < a.toNat → exec i s = .next (s.badRegister a))
    (hok : ∀ x : Fin 8, a.toNat = x.val → exec i s = .next (i.result s)) : exec i s = .next (i.outcome s) :=
  exec_eq_outcome_of_one hu hbad (fun _ _ h => nomatch hacc.symm.trans h) fun x hx _ => hok x hx

/-- An ALU instruction: two register operands and no access. -/
theorem exec_eq_outcome_of_two {i : Instr} {s : State} {a b : Byte} (hu : i.usedRegs s = [a, b]) (hacc : i.accessed s = none)
    (hbada : 7 < a.toNat → exec i s = .next (s.badRegister a))
    (hbadb : a.toNat ≤ 7 → 7 < b.toNat → exec i s = .next (s.badRegister b))
    (hok : ∀ x y : Fin 8, a.toNat = x.val → b.toNat = y.val → exec i s = .next (i.result s)) :
    exec i s = .next (i.outcome s) := by
  have hr := Instr.badReg_of_two hu
  by_cases ha : 7 < a.toNat
  · rw [if_pos ha] at hr
    rw [Instr.outcome_of_badReg hr, hbada ha]
  · rw [if_neg ha] at hr
    by_cases hb : 7 < b.toNat
    · rw [if_pos hb] at hr
      rw [Instr.outcome_of_badReg hr, hbadb (by omega) hb]
    · rw [if_neg hb] at hr
      rw [Instr.outcome_of_inside hr (fun _ h => nomatch hacc.symm.trans h),
        hok ⟨a.toNat, by omega⟩ ⟨b.toNat, by omega⟩ rfl rfl]

/-! The meaning of each instruction, against the table. -/

theorem exec_ldi_eq_outcome (a imm : Byte) (s : State) : exec (.ldi a imm) s = .next ((Instr.ldi a imm).outcome s) := by
  refine exec_eq_outcome_of_one_only rfl rfl (finish_writeReg_of_gt _ s _) fun x hx => ?_
  rw [exec_ldi_of_lt imm s (hx.trans_lt x.isLt), Instr.result, State.regsWith_of_lt s imm (hx.trans_lt x.isLt)]

theorem exec_prn_eq_outcome (a : Byte) (s : State) : exec (.prn a) s = .next ((Instr.prn a).outcome s) := by
  refine exec_eq_outcome_of_one_only rfl rfl (finish_readReg_of_gt s _) fun x hx => ?_
  rw [exec_prn_of_lt s (hx.trans_lt x.isLt), Instr.result, State.reg_of_eq s hx]
  simp only [hx, Fin.getElem_fin]

theorem exec_mul_eq_outcome (a b : Byte) (s : State) : exec (.mul a b) s = .next ((Instr.mul a b).outcome s) := by
  refine exec_eq_outcome_of_two rfl rfl (finish_alu_of_gt_left b s _ (.inl rfl)) (finish_alu_of_gt_right s _ (.inl rfl))
    fun x y hx hy => ?_
  rw [exec_mul_of_eq s hx hy, Instr.result, State.reg_of_eq s hx, State.reg_of_eq s hy,
    State.regsWith_of_lt s _ (hx.trans_lt x.isLt)]
  simp only [hx]

theorem exec_add_eq_outcome (a b : Byte) (s : State) : exec (.add a b) s = .next ((Instr.add a b).outcome s) := by
  refine exec_eq_outcome_of_two rfl rfl (finish_alu_of_gt_left b s _ (.inr (.inl rfl)))
    (finish_alu_of_gt_right s _ (.inr (.inl rfl))) fun x y hx hy => ?_
  rw [exec_add_of_eq s hx hy, Instr.result, State.reg_of_eq s hx, State.reg_of_eq s hy,
    State.regsWith_of_lt s _ (hx.trans_lt x.isLt)]
  simp only [hx]

theorem exec_cmp_eq_outcome (a b : Byte) (s : State) : exec (.cmp a b) s = .next ((Instr.cmp a b).outcome s) := by
  refine exec_eq_outcome_of_two rfl rfl (finish_alu_of_gt_left b s _ (.inr (.inr rfl)))
    (finish_alu_of_gt_right s _ (.inr (.inr rfl))) fun x y hx hy => ?_
  rw [exec_cmp_of_eq s hx hy, Instr.result, State.reg_of_eq s hx, State.reg_of_eq s hy]

/-- A push has room exactly when the address below `sp` is one of the memory's. -/
theorem exec_push_eq_outcome (a : Byte) (s : State) : exec (.push a) s = .next ((Instr.push a).outcome s) := by
  refine exec_eq_outcome_of_one rfl (finish_readReg_of_gt s _) (fun ha addr hacc hout => ?_) fun x hx hin => ?_
  · cases hacc
    rw [exec_push_of_lt s ha, finish_push_of_no_room _ s _ (by omega)]
  · have hroom := hin _ rfl
    rw [exec_push_of_room s hx (by omega) (by omega), Instr.result, State.reg_of_eq s hx]

theorem exec_pop_eq_outcome (a : Byte) (s : State) : exec (.pop a) s = .next ((Instr.pop a).outcome s) := by
  refine exec_eq_outcome_of_one rfl (finish_checkReg_of_gt s _) (fun ha addr hacc hout => ?_) fun x hx hin => ?_
  · cases hacc
    exact exec_pop_of_outside s ha (by omega)
  · have hinside := hin _ rfl
    rw [exec_pop_of_inside s (hx.trans_lt x.isLt) (by omega), Instr.result, State.regsWith_of_lt s _ (hx.trans_lt x.isLt)]

theorem exec_call_eq_outcome (a : Byte) (s : State) : exec (.call a) s = .next ((Instr.call a).outcome s) := by
  refine exec_eq_outcome_of_one rfl (finish_readReg_of_gt s _) (fun ha addr hacc hout => ?_) fun x hx hin => ?_
  · cases hacc
    rw [exec_call_of_lt s ha, finish_push_of_no_room _ s _ (by omega)]
  · have hroom := hin _ rfl
    rw [exec_call_of_room s hx (by omega) (by omega), Instr.result, State.reg_of_eq s hx]

theorem exec_ret_eq_outcome (s : State) : exec .ret s = .next (Instr.ret.outcome s) := by
  by_cases h : s.sp.toNat ≤ 255
  · rw [exec_ret_of_inside s h, Instr.outcome_of_inside rfl fun addr hacc => by cases hacc; omega, Instr.result]
  · rw [exec_ret, finish_pop_of_outside s _ (by omega), Instr.outcome_of_outside rfl rfl (by omega)]

theorem exec_jmp_eq_outcome (a : Byte) (s : State) : exec (.jmp a) s = .next ((Instr.jmp a).outcome s) := by
  refine exec_eq_outcome_of_one_only rfl rfl (exec_jmp_of_gt s) fun x hx => ?_
  rw [exec_jmp_of_eq s hx, Instr.result, State.reg_of_eq s hx]

/-- A taken JEQ uses its register and goes where a JMP does (R133). -/
theorem exec_jeq_eq_outcome (a : Byte) (s : State) : exec (.jeq a) s = .next ((Instr.jeq a).outcome s) := by
  cases hE : s.fl[0] with
  | true =>
    rw [exec_jeq_of_equal a hE, exec_jmp_eq_outcome]
    simp [Instr.outcome, Instr.errorIn, Instr.usedRegs, Instr.accessed, Instr.result, hE]
  | false =>
    have hr : (Instr.jeq a).badReg s = none := by simp [Instr.badReg, Instr.usedRegs, hE]
    rw [exec_jeq_of_not_equal a hE, Instr.outcome_of_inside hr nofun]
    simp only [Instr.result, hE, if_false, Bool.false_eq_true]
    rfl

/-- A taken JNE uses its register and goes where a JMP does (R134). -/
theorem exec_jne_eq_outcome (a : Byte) (s : State) : exec (.jne a) s = .next ((Instr.jne a).outcome s) := by
  cases hE : s.fl[0] with
  | true =>
    have hr : (Instr.jne a).badReg s = none := by simp [Instr.badReg, Instr.usedRegs, hE]
    rw [exec_jne_of_equal a hE, Instr.outcome_of_inside hr nofun]
    simp only [Instr.result, hE, if_true]
    rfl
  | false =>
    rw [exec_jne_of_not_equal a hE, exec_jmp_eq_outcome]
    simp [Instr.outcome, Instr.errorIn, Instr.usedRegs, Instr.accessed, Instr.result, hE]

/-- Every instruction does what the table of R155 and its own result say, and nothing else. -/
theorem exec_eq_outcome (i : Instr) (s : State) : exec i s = .next (i.outcome s) := by
  cases i with
  | hlt => rfl
  | ldi a imm => exact exec_ldi_eq_outcome a imm s
  | prn a => exact exec_prn_eq_outcome a s
  | mul a b => exact exec_mul_eq_outcome a b s
  | add a b => exact exec_add_eq_outcome a b s
  | cmp a b => exact exec_cmp_eq_outcome a b s
  | push a => exact exec_push_eq_outcome a s
  | pop a => exact exec_pop_eq_outcome a s
  | call a => exact exec_call_eq_outcome a s
  | ret => exact exec_ret_eq_outcome s
  | jmp a => exact exec_jmp_eq_outcome a s
  | jeq a => exact exec_jeq_eq_outcome a s
  | jne a => exact exec_jne_eq_outcome a s

/-- An execution answers the outcome of its instruction, and no other state. -/
theorem eq_outcome_of_exec_eq_next {i : Instr} {s t : State} (h : exec i s = .next t) : t = i.outcome s := by
  rw [exec_eq_outcome] at h
  cases h
  rfl

/-- Only HLT touches the run state (R27). -/
theorem Instr.result_run (i : Instr) (s : State) : (i.result s).run = if i = .hlt then .halted else s.run := by
  cases i <;> rfl

theorem Instr.result_safe (i : Instr) {s : State} (h : s.run = .running) : (i.result s).safe := by
  intro e
  rw [Instr.result_run, h]
  split <;> simp

/-- Settles O14: each meaning makes the checks of its row of R155 in the order of R157, and one that fails ends it. -/
theorem executionErrorsMatchTheTable : Obligations.ExecutionErrorsMatchTheTable := by
  refine fun i s hr => ⟨fun e he => ?_, fun he => ⟨i.result s, ?_, i.result_safe hr⟩⟩
  · rw [exec_eq_outcome, Instr.outcome_of_errorIn_eq_some he]
    rfl
  · rw [exec_eq_outcome, Instr.outcome_of_errorIn_eq_none he]

end Sys2Proof
end

section
/-! PROOFS. What a step does, said once: it runs the decoded instruction, or it ends the run with an error and keeps nothing else
(40_cycle.md R82 to R85; 60_exceptions.md R151 to R157). -/

namespace Sys2Proof.Machine

theorem State.safe_of_running {s : State} (h : s.run = .running) : s.safe := fun _ he => nomatch h.symm.trans he

/-! ### Decoding at `pc` -/

theorem opcode_of_current {s : State} {i : Instr} (h : s.current = .ok i) : i.opcode = s.byteAt s.pc.toNat :=
  opcode_of_decode_eq_ok h

/-- The byte at `pc` selects the instruction (R64). -/
theorem current_of_opcode {s : State} (op : Op) (h : s.byteAt s.pc.toNat = op.opcode) :
    s.current = .ok (op.instr (s.byteAt (s.pc.toNat + 1)) (s.byteAt (s.pc.toNat + 2))) := by
  rw [State.current, h, decode_opcode]

/-- An instruction is HLT exactly when its opcode is HLT's. -/
theorem eq_hlt_iff_opcode (i : Instr) : i = .hlt ↔ i.opcode = 0x01 := by
  refine ⟨fun h => h ▸ rfl, fun h => ?_⟩
  have hop : i.op = .hlt := Op.opcode_injective h
  cases i with
  | hlt => rfl
  | _ => cases hop

/-! ### The errors a step can end in -/

/-- The errors that end a step from `s`, with what they record (R151, R152, R155). -/
inductive StepError (s : State) : FatalError → Prop where
  /-- The fetch left the memory. -/
  | fetch (ir : Byte) (h : ¬ s.fetchable) :
      StepError s (.addressOutOfRange .memory (if s.pc.toNat ≤ 255 then 256 else (s.pc.toNat : Int)) s.pc ir)
  /-- The opcode byte is in no row. -/
  | decode (ir : Byte) : StepError s (.unknownOpcode s.pc ir)
  /-- The instruction raised. -/
  | execute {i : Instr} {e : FatalError} (hi : s.current = .ok i) (he : i.errorIn s.latched = some e) : StepError s e

/-- A step that decodes `i` ends as `i` does: in its result, or in the state before the step with its error taken (R156). -/
theorem step_of_errorIn_eq_none {s : State} {i : Instr} (hr : s.run = .running) (hf : s.fetchable) (hi : s.current = .ok i)
    (he : i.errorIn s.latched = none) : step s = .next (i.result s.latched) := by
  rw [step_of_fetchable hr hf, executeFetched_of_ok hi, exec_eq_outcome, Instr.outcome_of_errorIn_eq_none he,
    keepIfFaulted_of_safe s (i.result_safe (s := s.latched) hr)]

theorem step_of_errorIn_eq_some {s : State} {i : Instr} {e : FatalError} (hr : s.run = .running) (hf : s.fetchable)
    (hi : s.current = .ok i) (he : i.errorIn s.latched = some e) : step s = .next (raise e s) := by
  rw [step_of_fetchable hr hf, executeFetched_of_ok hi, exec_eq_outcome, Instr.outcome_of_errorIn_eq_some he,
    keepIfFaulted_of_faulted s (raise_run e s.latched)]

theorem step_of_current_eq_error {s : State} {r : Reject} (hr : s.run = .running) (hf : s.fetchable) (hc : s.current = .error r) :
    step s = .next (raise (.unknownOpcode s.pc (s.byteAt s.pc.toNat)) s) := by
  rw [step_of_fetchable hr hf, executeFetched_of_error hc]

/-- An error in the fetch spends the free value it recorded as `ir`, and changes nothing else (R156, log 4). -/
theorem raiseInFetch_eq (e : FatalError) (s : State) :
    raiseInFetch e s = { s with run := .faulted e, draws := if s.pc.toNat ≤ 255 then s.draws else s.draws + 1 } := by
  have hin : inMemory s.pc.int = true ↔ s.pc.toNat ≤ 255 := by
    rw [inMemory_iff]
    simp only [Ptr.int]
    omega
  by_cases h : s.pc.toNat ≤ 255
  · simp only [raiseInFetch, hin.2 h, h, if_true, raise]
  · simp only [raiseInFetch, mt hin.1 h, h, if_false, raise, Bool.false_eq_true]

/-- A step from Running ends the run with one of the errors, changing nothing else of the spec's state, or completes the decoded
instruction. -/
theorem step_error_or_result {s t : State} (h : step s = .next t) :
    (∃ e draws, StepError s e ∧ t = { s with run := .faulted e, draws := draws }) ∨
    (s.fetchable ∧ ∃ i, s.current = .ok i ∧ i.errorIn s.latched = none ∧ t = i.result s.latched) := by
  obtain ⟨hr, ⟨hf, e, he, ht⟩ | ⟨hf, r, hc, ht⟩ | ⟨hf, i, -, hi, -, -⟩⟩ := step_cases h
  · rw [fetch_of_not_fetchable s hf] at he
    cases he
    exact .inl ⟨_, _, .fetch _ hf, ht.trans (raiseInFetch_eq _ s)⟩
  · exact .inl ⟨_, s.draws, .decode _, ht⟩
  · cases he : i.errorIn s.latched with
    | some e =>
      rw [step_of_errorIn_eq_some hr hf hi he] at h
      cases h
      exact .inl ⟨e, s.draws, .execute hi he, rfl⟩
    | none =>
      rw [step_of_errorIn_eq_none hr hf hi he] at h
      cases h
      exact .inr ⟨hf, i, hi, he, rfl⟩

end Sys2Proof.Machine

namespace Sys2Proof

open Machine

/-! ### The operands and accesses behind an execution's error -/

/-- Each access of the table is one below the stack pointer or at it (R155). -/
theorem Instr.accessed_cases {i : Instr} {s : State} {addr : Int} (h : i.accessed s = some addr) :
    addr = (s.sp.toNat : Int) - 1 ∨ addr = (s.sp.toNat : Int) := by
  cases i with
  | push | call => exact .inl (Option.some.inj h).symm
  | pop | ret => exact .inr (Option.some.inj h).symm
  | hlt | ldi | prn | mul | add | cmp | jmp | jeq | jne => cases h

/-- The register operands of a well-formed instruction exist, whichever of them it uses (log 23). -/
theorem Instr.badReg_eq_none_of_wf {i : Instr} (s : State) (h : i.wf = true) : i.badReg s = none := by
  refine List.find?_eq_none.2 fun r hr => ?_
  suffices hlt : r.toNat < 8 by simp only [decide_eq_true_eq]; omega
  cases i with
  | hlt | ret => cases hr
  | ldi | prn | push | pop | call | jmp => cases List.mem_singleton.1 hr; exact (namesReg_iff _).1 h
  | mul a b | add a b | cmp a b =>
    obtain ⟨ha, hb⟩ := Bool.and_eq_true_iff.1 h
    obtain rfl | rfl : r = a ∨ r = b := by simpa [Instr.usedRegs] using hr
    · exact (namesReg_iff r).1 ha
    · exact (namesReg_iff r).1 hb
  | jeq a | jne a =>
    have : r = a := by revert hr; cases s.fl[0] <;> simp [Instr.usedRegs, *]
    exact (namesReg_iff r).1 (this ▸ h)

/-- Settles O7: the step executes the latched state, and gives the state before the fetch back when the execution raised. -/
theorem stepRunsTheDecodedInstruction : Obligations.StepRunsTheDecodedInstruction := by
  intro s i hr hf hi
  refine ⟨i.outcome s.latched, exec_eq_outcome i s.latched, fun hsafe => ?_, fun e he => ?_⟩ <;>
    rw [step_of_fetchable hr hf, executeFetched_of_ok hi, exec_eq_outcome]
  · exact keepIfFaulted_of_safe s hsafe
  · exact keepIfFaulted_of_faulted s he

/-- Settles O8: the opcode byte alone decides whether the fetched bytes decode, and a byte that does not is never executed. -/
theorem illegalOpcodeRaisesUnknownOpcode : Obligations.IllegalOpcodeRaisesUnknownOpcode := by
  refine fun s hr hf => ⟨fun hlegal => ?_, fun hillegal => ?_⟩
  · obtain ⟨i, hi⟩ := (exists_decode_eq_ok_iff _ _ _).2 hlegal
    exact ⟨i, hi, opcode_of_current hi⟩
  · exact step_of_current_eq_error hr hf (decode_of_not_mem_legalOpcodes _ _ hillegal)

/-- Settles O9: one of the three reads of the fetch is at 256, and the reads below it succeed. -/
theorem fetchAtTheTopOfMemoryFaults : Obligations.FetchAtTheTopOfMemoryFaults := by
  intro s hr hlow hhigh
  have hf : ¬ s.fetchable := by unfold State.fetchable; omega
  obtain ⟨e, he, hs⟩ := step_of_not_fetchable hr hf
  have hv : (if s.pc.toNat ≤ 255 then 256 else (s.pc.toNat : Int)) = 256 := by split <;> omega
  rw [fetch_of_not_fetchable s hf, hv] at he
  cases he
  rw [hs, raiseInFetch_eq]
  exact ⟨_, _, rfl, fun h => ⟨if_pos h, if_pos h⟩⟩

/-- Settles O12: a completed instruction leaves the run Running or Halted, so a step that ends in Faulted ended in an error. -/
theorem faultingStepKeepsNoOtherChange : Obligations.FaultingStepKeepsNoOtherChange := by
  intro s t e h hrun
  obtain ⟨e', draws, -, rfl⟩ | ⟨-, i, -, -, rfl⟩ := step_error_or_result h
  · cases hrun
    exact ⟨draws, rfl⟩
  · exact absurd hrun (i.result_safe (s := s.latched) (step_cases h).1 e)

/-- Settles O13: no error ends in Halted, and of the completed instructions HLT alone sets the run state. -/
theorem haltedIsEnteredOnlyByHlt : Obligations.HaltedIsEnteredOnlyByHlt := by
  intro s t h
  have hr := (step_cases h).1
  constructor
  · intro hrun
    obtain ⟨e, draws, -, rfl⟩ | ⟨hf, i, hi, -, rfl⟩ := step_error_or_result h
    · cases hrun
    · have hhlt : i = .hlt := by
        by_contra hne
        rw [Instr.result_run, if_neg hne, latched_run, hr] at hrun
        cases hrun
      exact ⟨hf, (opcode_of_current hi).symm.trans ((eq_hlt_iff_opcode i).1 hhlt)⟩
  · rintro ⟨hf, hop⟩
    rw [step_of_errorIn_eq_none hr hf (current_of_opcode .hlt hop) rfl] at h
    cases h
    rfl

/-- Settles O15: a fetch error names 256, a bad index is a byte above 7, and an access is at `sp` or one below it. -/
theorem outOfRangeValuesThatArise : Obligations.OutOfRangeValuesThatArise := by
  intro s t space v pc ir hinv h hrun
  obtain ⟨e, draws, herr, rfl⟩ | ⟨-, i, -, -, rfl⟩ := step_error_or_result h
  · cases hrun
    have hpc := hinv.pc_le
    have hsp := hinv.sp_le
    cases herr with
    | fetch =>
      refine ⟨rfl, fun _ => .inr ?_, nofun⟩
      split <;> omega
    | execute hi he =>
      obtain ⟨r, hr, he⟩ | ⟨-, addr, hacc, hout, he⟩ := (Instr.errorIn_eq_some_iff ..).1 he
      · cases he
        have hgt := Instr.gt_of_badReg_eq_some hr
        have hlt := r.isLt
        exact ⟨rfl, nofun, fun _ => by omega⟩
      · cases he
        have haddr := Instr.accessed_cases hacc
        rw [latched_sp] at haddr
        exact ⟨rfl, fun _ => by omega, nofun⟩
  · exact absurd hrun (i.result_safe (s := s.latched) (step_cases h).1 _)

/-- Settles O17: with its registers there and its access inside memory, the table of R155 gives a well-formed instruction no error. -/
theorem wellFormedInstructionStepCompletes : Obligations.WellFormedInstructionStepCompletes := by
  intro s i hr hf hi hwf hlow hhigh
  have hnone : i.errorIn s.latched = none := by
    refine (i.errorIn_eq_none_iff _).2 ⟨Instr.badReg_eq_none_of_wf _ hwf, fun addr hacc => ?_⟩
    have haddr := Instr.accessed_cases hacc
    rw [latched_sp] at haddr
    omega
  exact ⟨_, step_of_errorIn_eq_none hr hf hi hnone, i.result_safe (s := s.latched) hr⟩

end Sys2Proof
end

section
/-! PROOFS. Of FL, only bit 0 is read (44_control_flow.md R133, R134, R137). -/

namespace Sys2Proof

open Machine

/-- The errors of an execution depend on FL through E alone (R155, D9). -/
theorem Instr.errorIn_withFlags (i : Instr) (s : State) {fl : Byte} (hE : fl[0] = s.fl[0]) :
    i.errorIn { s with fl := fl } = i.errorIn s := by
  have hu : i.usedRegs { s with fl := fl } = i.usedRegs s := by
    cases i with
    | jeq a | jne a => simp only [Instr.usedRegs, hE]
    | _ => rfl
  have hacc : i.accessed { s with fl := fl } = i.accessed s := by cases i <;> rfl
  simp only [Instr.errorIn, hu, hacc]

/-- A result depends on FL through E alone, but for FL itself: CMP overwrites it, and every other instruction keeps it. -/
theorem Instr.result_withFlags (i : Instr) (s : State) {fl : Byte} (hE : fl[0] = s.fl[0]) :
    ∃ fl' : Byte, i.result { s with fl := fl } = { i.result s with fl := fl' } ∧ fl'[0] = (i.result s).fl[0] := by
  cases i with
  | cmp a b => exact ⟨compareFlags (s.reg a) (s.reg b), rfl, rfl⟩
  | jeq a | jne a => exact ⟨fl, by simp only [Instr.result, hE]; rfl, hE⟩
  | _ => exact ⟨fl, rfl, hE⟩

/-- Settles O37: neither the fetch nor the decoder reads FL, and an instruction reads E alone, in its errors as in its result. -/
theorem onlyTheEqualFlagIsRead : Obligations.OnlyTheEqualFlagIsRead := by
  intro s t fl hE h
  obtain ⟨hr, ⟨hf, e, he, ht⟩ | ⟨hf, r, hc, rfl⟩ | ⟨hf, i, -, hi, -, -⟩⟩ := step_cases h
  · have he' : fetch { s with fl := fl } = .error e :=
      (fetch_of_not_fetchable { s with fl := fl } hf).trans ((fetch_of_not_fetchable s hf).symm.trans he)
    obtain ⟨e', hfetch, hs⟩ := step_of_not_fetchable (s := { s with fl := fl }) hr hf
    cases he'.symm.trans hfetch
    refine ⟨fl, ?_, ?_⟩
    · rw [hs, ht, raiseInFetch_eq, raiseInFetch_eq]
    · rw [ht, raiseInFetch_eq]
      exact hE
  · exact ⟨fl, step_of_current_eq_error (s := { s with fl := fl }) hr hf hc, hE⟩
  · have herr := i.errorIn_withFlags s.latched hE
    cases he : i.errorIn s.latched with
    | some e =>
      rw [step_of_errorIn_eq_some hr hf hi he] at h
      cases h
      exact ⟨fl, step_of_errorIn_eq_some (s := { s with fl := fl }) hr hf hi (herr.trans he), hE⟩
    | none =>
      rw [step_of_errorIn_eq_none hr hf hi he] at h
      cases h
      obtain ⟨fl', hres, hE'⟩ := i.result_withFlags s.latched hE
      have hs := step_of_errorIn_eq_none (s := { s with fl := fl }) hr hf hi (herr.trans he)
      exact ⟨fl', hs.trans (congrArg _ hres), hE'⟩

end Sys2Proof
end

section
/-! PROOFS. What each instruction leaves unchanged, field by field (10_state.md; 20_memory.md). -/

namespace Sys2Proof

open Machine

/-- A comparison leaves one of the legal values in FL (R26). -/
theorem compareFlags_legal (va vb : Byte) :
    compareFlags va vb = 0x01 ∨ compareFlags va vb = 0x02 ∨ compareFlags va vb = 0x04 := by
  obtain ⟨-, h⟩ | ⟨-, h⟩ | ⟨-, h⟩ := compareFlags_cases va vb <;> simp [h]

/-- FL after an instruction: as before, or, for CMP, one flag (R26, D19). -/
theorem Instr.result_fl (i : Instr) (s : State) :
    (i.result s).fl = s.fl ∨
    i.op = .cmp ∧ ((i.result s).fl = 0x01 ∨ (i.result s).fl = 0x02 ∨ (i.result s).fl = 0x04) := by
  cases i with
  | cmp a b => exact .inr ⟨rfl, compareFlags_legal _ _⟩
  | _ => exact .inl rfl

/-- `sp` after an instruction that raised nothing: as before, one lower for a push, one higher for a pop (R25). -/
theorem Instr.result_sp {i : Instr} {s : State} (h : i.errorIn s = none) :
    (i.result s).sp = s.sp ∨
    (i.op = .push ∨ i.op = .call) ∧ (i.result s).sp.toNat + 1 = s.sp.toNat ∧ s.sp.toNat ≤ 256 ∨
    (i.op = .pop ∨ i.op = .ret) ∧ (i.result s).sp.toNat = s.sp.toNat + 1 ∧ s.sp.toNat ≤ 255 := by
  obtain ⟨-, hin⟩ := (i.errorIn_eq_none_iff s).1 h
  have h1 : (1 : Ptr).toNat = 1 := rfl
  have hlt := s.sp.isLt
  cases i with
  | push | call =>
    have hroom := hin _ rfl
    refine .inr (.inl ⟨by simp [Instr.op], ?_, by omega⟩)
    simp only [Instr.result, BitVec.toNat_sub, h1]
    omega
  | pop | ret =>
    have hinside := hin _ rfl
    refine .inr (.inr ⟨by simp [Instr.op], ?_, by omega⟩)
    simp only [Instr.result, BitVec.toNat_add, h1]
    omega
  | _ => exact .inl rfl

/-- Memory after an instruction that raised nothing: as before, or, for PUSH and CALL, one write at `sp - 1` (R41). -/
theorem Instr.result_mem {i : Instr} {s : State} (h : i.errorIn s = none) :
    (i.result s).mem = s.mem ∨
    (i.op = .push ∨ i.op = .call) ∧ 1 ≤ s.sp.toNat ∧ s.sp.toNat ≤ 256 ∧
      ∃ b, (i.result s).mem = s.mem.set (s.sp.toNat - 1) b := by
  obtain ⟨-, hin⟩ := (i.errorIn_eq_none_iff s).1 h
  cases i with
  | push | call =>
    have hroom := hin _ rfl
    exact .inr ⟨by simp [Instr.op], by omega, by omega, _, rfl⟩
  | _ => exact .inl rfl

/-- The operations that assign `pc` or leave it at their own address; every other advances it by its length (R24, R63). -/
theorem Instr.result_pc_of_sequential {i : Instr} (s : State)
    (h : i.op ∉ [Op.hlt, Op.call, Op.ret, Op.jmp, Op.jeq, Op.jne]) :
    (i.result s).pc = s.pc + BitVec.ofNat 9 i.length := by
  cases i with
  | hlt | call | ret | jmp | jeq | jne => exact absurd h (by simp [Instr.op])
  | _ => rfl

theorem Op.length_le (op : Op) : op.length ≤ 3 := by
  cases op <;> decide

/-- From a `pc` whose fetch is in range an advance does not wrap (R24). -/
theorem toNat_pc_add {s : State} {n : Nat} (h : s.fetchable) (hn : n ≤ 3) : (s.pc + BitVec.ofNat 9 n).toNat = s.pc.toNat + n := by
  unfold State.fetchable at h
  rw [BitVec.toNat_add, BitVec.toNat_ofNat]
  omega

theorem toNat_setWidth_le (b : Byte) : (b.setWidth 9).toNat ≤ 256 := by
  rw [toNat_setWidth_nine]
  have := b.isLt
  omega

/-- `pc` after an instruction fetched in range is at most 256: a byte, or the address after the instruction (R24). -/
theorem Instr.result_pc_le (i : Instr) {s : State} (h : s.fetchable) : (i.result s).pc.toNat ≤ 256 := by
  have hadv (n : Nat) (hn : n ≤ 3) : (s.pc + BitVec.ofNat 9 n).toNat ≤ 256 := by
    rw [toNat_pc_add h hn]
    unfold State.fetchable at h
    omega
  cases i with
  | hlt => exact Nat.le_trans h (by decide)
  | call | ret | jmp => exact toNat_setWidth_le _
  | jeq a =>
    simp only [Instr.result]
    split
    · exact toNat_setWidth_le _
    · exact hadv 2 (by decide)
  | jne a =>
    simp only [Instr.result]
    split
    · exact hadv 2 (by decide)
    · exact toNat_setWidth_le _
  | prn | push | pop => exact hadv 2 (by decide)
  | ldi | mul | add | cmp => exact hadv 3 (by decide)

/-- A register that is no instruction's destination keeps its value (R20). -/
theorem Instr.result_regs_of_ne {i : Instr} (s : State) (r : Fin 8) (h : ∀ d, i.destination = some d → d.toNat ≠ r.val) :
    (i.result s).regs[r] = s.regs[r] := by
  cases i with
  | ldi a | mul a | add a | pop a => exact State.regsWith_getElem_ne s _ r (h a rfl)
  | _ => rfl

/-- Only PRN emits (R30). -/
theorem Instr.result_output (i : Instr) (s : State) :
    (i.result s).output = s.output ∨ ∃ a, i = .prn a ∧ (i.result s).output = s.output ++ [s.reg a] := by
  cases i with
  | prn a => exact .inr ⟨a, rfl, rfl⟩
  | _ => exact .inl rfl

/-- An execution raised and changed the run state alone, or raised nothing and gave its result. -/
theorem Instr.outcome_cases (i : Instr) (s : State) :
    (∃ e, i.outcome s = raise e s) ∨ (i.errorIn s = none ∧ i.outcome s = i.result s) := by
  cases he : i.errorIn s with
  | some e => exact .inl ⟨e, Instr.outcome_of_errorIn_eq_some he⟩
  | none => exact .inr ⟨rfl, Instr.outcome_of_errorIn_eq_none he⟩

/-- The operand of a decoded PRN is the byte after its opcode, and names a register when the PRN raises nothing. -/
theorem exists_register_of_prn {s : State} {a : Byte} (hi : s.current = .ok (.prn a)) (he : (Instr.prn a).errorIn s.latched = none) :
    ∃ x : Fin 8, (s.byteAt (s.pc.toNat + 1)).toNat = x.val ∧ s.latched.reg a = s.regs[x] := by
  obtain ⟨hbad, -⟩ := (Instr.errorIn_eq_none_iff ..).1 he
  have hlt : a.toNat < 8 := Instr.lt_of_badReg_eq_none hbad (List.mem_singleton_self a)
  have ha : a = s.byteAt (s.pc.toNat + 1) := by
    have hpre := encode_prefix_of_decode_eq_ok hi
    simp only [encode, List.cons_prefix_cons] at hpre
    exact hpre.2.1
  exact ⟨⟨a.toNat, hlt⟩, congrArg _ ha.symm, State.reg_of_eq s.latched rfl⟩

/-- Settles O31: an error changes no register, and a completed instruction writes the one it names. -/
theorem onlyTheDestinationRegisterChanges : Obligations.OnlyTheDestinationRegisterChanges := by
  intro i s t h r hr
  rw [eq_outcome_of_exec_eq_next h]
  obtain ⟨e, hout⟩ | ⟨-, hout⟩ := i.outcome_cases s <;> rw [hout]
  · rfl
  · exact Instr.result_regs_of_ne s r hr

/-- Settles O32: an error changes no memory, and only a push writes it, once. -/
theorem onlyPushedBytesChangeMemory : Obligations.OnlyPushedBytesChangeMemory := by
  intro i s t h k hk
  rw [eq_outcome_of_exec_eq_next h]
  obtain ⟨e, hout⟩ | ⟨he, hout⟩ := i.outcome_cases s <;> rw [hout]
  · rfl
  · obtain hm | ⟨hop, hlow, -, b, hm⟩ := Instr.result_mem he <;> rw [hm]
    have hne := hk hop
    exact Memory.get_set_ne s.mem b (by omega)

/-- Settles O33: an error keeps FL, and of the completed instructions only CMP writes it. -/
theorem flagsChangeOnlyByCmp : Obligations.FlagsChangeOnlyByCmp := by
  intro s t h hne
  obtain ⟨e, draws, -, rfl⟩ | ⟨hf, i, hi, -, rfl⟩ := step_error_or_result h
  · exact absurd rfl hne
  · obtain hfl | ⟨hop, hfl⟩ := i.result_fl s.latched
    · exact absurd hfl hne
    · exact ⟨hf, (opcode_of_current hi).symm.trans (congrArg Op.opcode hop), hfl⟩

/-- Settles O34: an error keeps `sp`, and a completed push or pop moves it by one, which does not wrap where the access is to memory. -/
theorem stackPointerMovesOnlyByPushAndPop : Obligations.StackPointerMovesOnlyByPushAndPop := by
  intro s t h hne
  obtain ⟨e, draws, -, rfl⟩ | ⟨hf, i, hi, he, rfl⟩ := step_error_or_result h
  · exact absurd rfl hne
  · have hbyte {op : Op} (hop : i.op = op) : s.byteAt s.pc.toNat = op.opcode :=
      (opcode_of_current hi).symm.trans (congrArg Op.opcode hop)
    obtain hsp | ⟨hop, hsp, -⟩ | ⟨hop, hsp, -⟩ := Instr.result_sp he
    · exact absurd hsp hne
    · exact ⟨hf, .inl ⟨hop.imp hbyte hbyte, hsp⟩⟩
    · exact ⟨hf, .inr ⟨hop.imp hbyte hbyte, hsp⟩⟩

/-- Settles O35: an error keeps the output record, and a completed PRN alone appends to it. -/
theorem outputGrowsOnlyByPrn : Obligations.OutputGrowsOnlyByPrn := by
  intro s t h hne
  obtain ⟨e, draws, -, rfl⟩ | ⟨hf, i, hi, he, rfl⟩ := step_error_or_result h
  · exact absurd rfl hne
  · obtain hout | ⟨a, rfl, hout⟩ := i.result_output s.latched
    · exact absurd hout hne
    · obtain ⟨x, hx, hreg⟩ := exists_register_of_prn hi he
      exact ⟨hf, (opcode_of_current hi).symm, x, hx, by rw [hout, hreg]; rfl⟩

/-- Settles O36: the last fetchable `pc` is 253 and the longest instruction has 3 bytes, so the sum fits. -/
theorem sequentialAdvanceDoesNotWrap : Obligations.SequentialAdvanceDoesNotWrap := by
  intro s t i h hf hi hsafe hop
  obtain ⟨e, draws, -, rfl⟩ | ⟨-, j, hj, -, rfl⟩ := step_error_or_result h
  · exact absurd rfl (hsafe e)
  · cases hi.symm.trans hj
    have hlen : i.length ≤ 3 := i.op.length_le
    have hpc : (i.result s.latched).pc.toNat = s.pc.toNat + i.length := by
      rw [Instr.result_pc_of_sequential _ hop, latched_pc, toNat_pc_add hf hlen]
    unfold State.fetchable at hf
    exact ⟨hpc, by omega⟩

end Sys2Proof
end

section
/-! PROOFS. The invariant of every run: it holds after reset, and every load and every step keep it (10_state.md R24 to R26, R40;
60_exceptions.md R153). -/

namespace Sys2Proof

open Machine

/-- A step never ends in UnsupportedAluOperation (R86). -/
theorem StepError.ne_unsupported {s : State} {e : FatalError} (h : StepError s e) : e ≠ .unsupportedAluOperation := by
  cases h with
  | fetch | decode => exact nofun
  | execute hi he =>
    obtain ⟨r, -, rfl⟩ | ⟨-, addr, -, -, rfl⟩ := (Instr.errorIn_eq_some_iff ..).1 he <;> exact nofun

/-- A completed instruction, fetched in range, keeps the invariant. -/
theorem Instr.inv_result {i : Instr} {s : State} (hinv : Inv s) (hf : s.fetchable) (he : i.errorIn s = none) :
    Inv (i.result s) where
  mem_wf := by
    obtain hm | ⟨-, hlow, hhigh, b, hm⟩ := Instr.result_mem he <;> rw [hm]
    · exact hinv.mem_wf
    · exact Memory.wf_set b (show s.sp.toNat - 1 < 256 by omega) hinv.mem_wf
  pc_le := i.result_pc_le hf
  sp_le := by
    have := hinv.sp_le
    obtain hsp | ⟨-, hsp, -⟩ | ⟨-, hsp, hle⟩ := Instr.result_sp he
    · rwa [hsp]
    · omega
    · omega
  fl_legal := by
    obtain hfl | ⟨-, hfl⟩ := i.result_fl s
    · rw [hfl]
      exact hinv.fl_legal
    · exact .inr hfl
  run_supported := by
    rw [Instr.result_run]
    split
    · exact nofun
    · exact hinv.run_supported

/-- The latches are no part of the invariant. -/
theorem inv_latched {s : State} (h : Inv s) : Inv s.latched := ⟨h.mem_wf, h.pc_le, h.sp_le, h.fl_legal, h.run_supported⟩

/-- A completed load changes memory alone (R95). -/
theorem load_eq_ok {bytes : List Byte} {start : Int} {s t : State} (h : load bytes start s = .ok t) :
    ∃ m, Memory.load bytes start s.mem = .ok m ∧ t = { s with mem := m } := by
  unfold load at h
  split at h
  next m hm => exact ⟨m, hm, (Except.ok.inj h).symm⟩
  next => cases h

/-- Settles O44: an error changes the run state alone and is never UnsupportedAluOperation, and a completed instruction keeps each
clause: memory by one write inside it, `pc` and `sp` by their bounds, FL by the three results of CMP. -/
theorem stepKeepsTheInvariant : Obligations.StepKeepsTheInvariant := by
  intro s t hinv h
  obtain ⟨e, draws, herr, rfl⟩ | ⟨hf, i, -, he, rfl⟩ := step_error_or_result h
  · exact ⟨hinv.mem_wf, hinv.pc_le, hinv.sp_le, hinv.fl_legal, fun hrun => StepError.ne_unsupported herr (RunState.faulted.inj hrun)⟩
  · exact Instr.inv_result (inv_latched hinv) hf he

/-- Settles O42: `launch` sets every field R180 names and takes the registers and the memory from its parameters. -/
theorem resetValues : Obligations.ResetValues :=
  ⟨fun _ _ => ⟨rfl, rfl, rfl, rfl, rfl, fun _ => rfl, fun _ => rfl⟩, rfl⟩

/-- Settles O43: of the invariant's clauses only that on memory depends on the launch parameters. -/
theorem resetMeetsTheInvariant : Obligations.ResetMeetsTheInvariant := by
  have hlaunch (regInit : Vector Byte 8) (memInit : Memory) (h : memInit.wf = true) : Inv (launch regInit memInit) :=
    ⟨h, (by decide : Config.pcReset.toNat ≤ 256), (by decide : Config.spReset.toNat ≤ 256), .inl rfl, nofun⟩
  exact ⟨hlaunch, hlaunch (Vector.replicate 8 0) [] State.reset_mem_wf⟩

/-- Settles O46: each byte of a completed load is one write inside memory, which keeps the canonical form. -/
theorem loadKeepsTheInvariant : Obligations.LoadKeepsTheInvariant := by
  intro bytes start s t hinv h
  obtain ⟨m, hm, rfl⟩ := load_eq_ok h
  exact ⟨Memory.wf_load hinv.mem_wf hm, hinv.pc_le, hinv.sp_le, hinv.fl_legal, hinv.run_supported⟩

end Sys2Proof
end

section
/-! PROOFS. The data of a canonical memory, and what a load writes (20_memory.md R40, R41; 40_cycle.md R95). -/

namespace Sys2Proof.Machine

/-- Below the first address a canonical memory may list, every address reads as an unlisted one. -/
theorem Memory.le_of_get_ne_unlisted {m : Memory} {low a : Nat} (hm : Memory.wfFrom low m = true)
    (h : m.get a ≠ Memory.unlisted a) : low ≤ a := by
  induction m generalizing low with
  | nil => exact absurd rfl h
  | cons cell m ih =>
    obtain ⟨x, c⟩ := cell
    obtain ⟨hlow, -, -, hrest⟩ := (Memory.wfFrom_cons ..).1 hm
    by_cases hx : x = a
    · omega
    · rw [Memory.get_cons, if_neg hx] at h
      have := ih hrest h
      omega

theorem Memory.get_eq_unlisted_of_lt {m : Memory} {low a : Nat} (hm : Memory.wfFrom low m = true) (h : a < low) :
    m.get a = Memory.unlisted a := by
  by_contra hne
  have := Memory.le_of_get_ne_unlisted hm hne
  omega

/-- The first cell of a canonical memory is where it first differs from an unlisted one. -/
theorem Memory.get_head_ne_unlisted {x low : Nat} {c : Byte} {m : Memory} (hm : Memory.wfFrom low ((x, c) :: m) = true) :
    Memory.get ((x, c) :: m) x ≠ Memory.unlisted x := by
  obtain ⟨-, -, hc, -⟩ := (Memory.wfFrom_cons ..).1 hm
  rwa [Memory.get_cons, if_pos rfl]

/-- The cells of a canonical memory can be read off its reads, in increasing order of their addresses. -/
theorem Memory.eq_of_get_eq {m m' : Memory} {low : Nat} (hm : Memory.wfFrom low m = true) (hm' : Memory.wfFrom low m' = true)
    (h : ∀ a, m.get a = m'.get a) : m = m' := by
  induction m generalizing m' low with
  | nil =>
    cases m' with
    | nil => rfl
    | cons cell m' => exact absurd (h cell.1).symm (Memory.get_head_ne_unlisted hm')
  | cons cell m ih =>
    cases m' with
    | nil => exact absurd (h cell.1) (Memory.get_head_ne_unlisted hm)
    | cons cell' m' =>
      obtain ⟨x, c⟩ := cell
      obtain ⟨y, d⟩ := cell'
      have hx := Memory.get_head_ne_unlisted hm
      have hy := Memory.get_head_ne_unlisted hm'
      obtain ⟨-, hxsize, hc, hrest⟩ := (Memory.wfFrom_cons ..).1 hm
      obtain ⟨-, hysize, hd, hrest'⟩ := (Memory.wfFrom_cons ..).1 hm'
      have hyx : y ≤ x :=
        Memory.le_of_get_ne_unlisted ((Memory.wfFrom_cons ..).2 ⟨le_refl y, hysize, hd, hrest'⟩) (h x ▸ hx)
      have hxy : x ≤ y :=
        Memory.le_of_get_ne_unlisted ((Memory.wfFrom_cons ..).2 ⟨le_refl x, hxsize, hc, hrest⟩) (h y ▸ hy)
      obtain rfl := le_antisymm hxy hyx
      have hcd : c = d := by simpa [Memory.get_cons] using h x
      have htail (a : Nat) : Memory.get m a = Memory.get m' a := by
        by_cases ha : x = a
        · rw [Memory.get_eq_unlisted_of_lt hrest (by omega), Memory.get_eq_unlisted_of_lt hrest' (by omega)]
        · simpa [Memory.get_cons, ha] using h a
      rw [hcd, ih hrest hrest' htail]

theorem Memory.load_cons (b : Byte) (bytes : List Byte) (start : Int) (m : Memory) :
    Memory.load (b :: bytes) start m =
      if inMemory start then Memory.load bytes (start + 1) (m.set start.toNat b) else .error (.addressOutOfRange start) := rfl

/-- A load whose addresses are all memory's completes; its bytes read back in order, and every other address reads as before (R95). -/
theorem Memory.load_of_inside (bytes : List Byte) (start : Nat) (m : Memory) (h : start + bytes.length ≤ 256) :
    ∃ m', Memory.load bytes start m = .ok m' ∧
      (∀ (k : Nat) (hk : k < bytes.length), m'.get (start + k) = bytes[k]) ∧
      ∀ a, a < start ∨ start + bytes.length ≤ a → m'.get a = m.get a := by
  induction bytes generalizing start m with
  | nil => exact ⟨m, rfl, fun k hk => absurd hk (Nat.not_lt_zero k), fun _ _ => rfl⟩
  | cons b bytes ih =>
    rw [List.length_cons] at h
    obtain ⟨m', hload, hbytes, hframe⟩ := ih (start + 1) (m.set start b) (by omega)
    refine ⟨m', ?_, fun k hk => ?_, fun a ha => ?_⟩
    · rw [Memory.load_cons, if_pos ((inMemory_iff _).2 (by omega))]
      exact hload
    · cases k with
      | zero =>
        rw [Nat.add_zero, hframe start (.inl (Nat.lt_succ_self start)), Memory.get_set_self, List.getElem_cons_zero]
      | succ k =>
        rw [List.getElem_cons_succ, ← hbytes k (by simpa using hk)]
        congr 1
        omega
    · rw [List.length_cons] at ha
      rw [hframe a (by omega), Memory.get_set_ne m b (by omega)]

/-- A load with an address outside memory fails and names one (D8). -/
theorem Memory.load_of_outside (bytes : List Byte) (start : Int) (m : Memory)
    (h : ∃ k : Nat, k < bytes.length ∧ (start + k < 0 ∨ 255 < start + k)) :
    ∃ addr, Memory.load bytes start m = .error (.addressOutOfRange addr) ∧ start ≤ addr ∧ addr < start + bytes.length ∧
      (addr < 0 ∨ 255 < addr) := by
  induction bytes generalizing start m with
  | nil =>
    obtain ⟨k, hk, -⟩ := h
    exact absurd hk (Nat.not_lt_zero k)
  | cons b bytes ih =>
    obtain ⟨k, hk, hout⟩ := h
    rw [List.length_cons] at hk ⊢
    by_cases hin : 0 ≤ start ∧ start ≤ 255
    · rw [Memory.load_cons, if_pos ((inMemory_iff start).2 hin)]
      obtain ⟨addr, hload, hlow, hhigh, haddr⟩ := ih (start + 1) (m.set start.toNat b) ⟨k - 1, by omega, by omega⟩
      exact ⟨addr, hload, by omega, by omega, haddr⟩
    · rw [Memory.load_cons, if_neg fun h => hin ((inMemory_iff start).1 h)]
      exact ⟨start, rfl, le_refl start, by omega, by omega⟩

theorem load_of_ok {bytes : List Byte} {start : Int} {s : State} {m : Memory} (h : Memory.load bytes start s.mem = .ok m) :
    load bytes start s = .ok { s with mem := m } := by
  rw [load, h]

theorem load_of_error {bytes : List Byte} {start : Int} {s : State} {e : LoadFailure}
    (h : Memory.load bytes start s.mem = .error e) : load bytes start s = .error e := by
  rw [load, h]

end Sys2Proof.Machine

namespace Sys2Proof

open Machine

/-- Settles O41: the least address that reads as no unlisted one is the first cell of both, and the rest follows by induction. -/
theorem equalReadsAreEqualMemories : Obligations.EqualReadsAreEqualMemories := fun _ _ hm hm' h => Memory.eq_of_get_eq hm hm' h

/-- Settles O45: by induction on the bytes, each of which is one write, at an address no later byte writes again. -/
theorem loadWritesExactlyItsBytes : Obligations.LoadWritesExactlyItsBytes := by
  refine fun bytes start s => ⟨fun h0 h => ?_, fun hout => ?_⟩
  · obtain ⟨n, rfl⟩ := Int.eq_ofNat_of_zero_le h0
    obtain ⟨m, hload, hbytes, hframe⟩ := Memory.load_of_inside bytes n s.mem (by omega)
    exact ⟨m, load_of_ok hload, hbytes, fun a ha => hframe a (by omega)⟩
  · obtain ⟨addr, hload, haddr⟩ := Memory.load_of_outside bytes start s.mem hout
    exact ⟨addr, load_of_error hload, haddr⟩

end Sys2Proof
end

section
/-! PROOFS. Runs: their answer, what every state of a run keeps, and a run that never ends (40_cycle.md R87 to R89, R97). -/

namespace Sys2Proof.Machine

/-- A run of a core that has ended answers its reason at once (R89, D12). -/
theorem runFor_of_reason {s : State} {r : TerminationReason} (h : s.run.reason = some r) (k : Nat) : runFor k s = some (r, s) := by
  cases k <;> simp only [runFor, h]

theorem reason_eq_none_iff (s : State) : s.run.reason = none ↔ s.run = .running := by
  cases h : s.run <;> simp [RunState.reason]

/-- With no fuel a Running core answers nothing. -/
theorem runFor_zero_of_running {s : State} (h : s.run = .running) : runFor 0 s = none := by
  simp only [runFor, (reason_eq_none_iff s).2 h]

/-- A run of a Running core is a step and the run from there (R87). -/
theorem runFor_succ_of_step {s t : State} (h : step s = .next t) (k : Nat) : runFor (k + 1) s = runFor k t := by
  simp only [runFor, (reason_eq_none_iff s).2 (step_cases h).1, h]

/-- A core that has a reason has ended; any other takes a step. -/
theorem reason_or_step (s : State) : (∃ r, s.run.reason = some r) ∨ ∃ t, step s = .next t := by
  cases h : s.run.reason with
  | some r => exact .inl ⟨r, rfl⟩
  | none => exact .inr (exists_step_eq_next ((reason_eq_none_iff s).1 h))

/-- The induction over a run that answers: from the state it ends in, back over its steps. -/
theorem runFor_induction {r : TerminationReason} {t : State} {motive : Nat → State → Prop}
    (hend : t.run.reason = some r → ∀ k, motive k t)
    (hstep : ∀ k s u, step s = .next u → motive k u → motive (k + 1) s) {k : Nat} {s : State}
    (h : runFor k s = some (r, t)) : motive k s := by
  induction k generalizing s with
  | zero =>
    obtain ⟨r', hr'⟩ | ⟨u, hu⟩ := reason_or_step s
    · cases (runFor_of_reason hr' 0).symm.trans h
      exact hend hr' 0
    · cases (runFor_zero_of_running (step_cases hu).1).symm.trans h
  | succ k ih =>
    obtain ⟨r', hr'⟩ | ⟨u, hu⟩ := reason_or_step s
    · cases (runFor_of_reason hr' (k + 1)).symm.trans h
      exact hend hr' (k + 1)
    · exact hstep k s u hu (ih ((runFor_succ_of_step hu k).symm.trans h))

/-- A run that answers answers the reason of the state it ended in. -/
theorem reason_of_runFor {k : Nat} {s t : State} {r : TerminationReason} (h : runFor k s = some (r, t)) :
    t.run.reason = some r :=
  runFor_induction (motive := fun _ _ => t.run.reason = some r) (fun hr _ => hr) (fun _ _ _ _ hr => hr) h

/-- More fuel than a run needs does not change its answer. -/
theorem runFor_add {k : Nat} {s t : State} {r : TerminationReason} (h : runFor k s = some (r, t)) (n : Nat) :
    runFor (k + n) s = some (r, t) := by
  refine runFor_induction (motive := fun k s => runFor (k + n) s = some (r, t)) (fun hr k => runFor_of_reason hr _)
    (fun k s u hu ih => ?_) h
  rw [Nat.succ_add, runFor_succ_of_step hu, ih]

/-- What every step keeps, a run keeps. -/
theorem runFor_keeps {P : State → Prop} (hP : ∀ s t, P s → step s = .next t → P t) {k : Nat} {s t : State}
    {r : TerminationReason} (hs : P s) (h : runFor k s = some (r, t)) : P t :=
  runFor_induction (motive := fun _ s => P s → P t) (fun _ _ ht => ht) (fun _ s u hu ih hs => ih (hP s u hs hu)) h hs

/-- A run whose every state steps to one like it has no answer (R88). -/
theorem runFor_eq_none_of_forever {P : State → Prop} (hP : ∀ s, P s → ∃ t, step s = .next t ∧ P t) {s : State} (hs : P s)
    (k : Nat) : runFor k s = none := by
  induction k generalizing s with
  | zero =>
    obtain ⟨t, ht, -⟩ := hP s hs
    exact runFor_zero_of_running (step_cases ht).1
  | succ k ih =>
    obtain ⟨t, ht, hPt⟩ := hP s hs
    rw [runFor_succ_of_step ht, ih hPt]

/-- `s` is Running at a JMP whose register `x` holds the address of that JMP. -/
structure State.JumpsToItself (s : State) (x : Fin 8) : Prop where
  running : s.run = .running
  fetchable : s.fetchable
  opcode : s.byteAt s.pc.toNat = 0x54
  operand : (s.byteAt (s.pc.toNat + 1)).toNat = x.val
  target : s.regs[x].toNat = s.pc.toNat

/-- The step of such a state changes the latches alone. -/
theorem State.JumpsToItself.step_eq {s : State} {x : Fin 8} (h : s.JumpsToItself x) : step s = .next s.latched := by
  have hpc : s.latched.regs[x].setWidth 9 = s.latched.pc :=
    BitVec.eq_of_toNat_eq ((toNat_setWidth_nine _).trans h.target)
  rw [step_of_fetchable h.running h.fetchable, executeFetched_of_ok (current_of_opcode .jmp h.opcode), Op.instr,
    exec_jmp_of_eq s.latched h.operand, hpc]
  exact keepIfFaulted_of_safe s (State.safe_of_running h.running)

end Sys2Proof.Machine

namespace Sys2Proof

open Machine

/-- Settles O11: with a reason no step is enabled, and a run looks for the reason before it steps. -/
theorem terminatedCoreKeepsItsReason : Obligations.TerminatedCoreKeepsItsReason := by
  intro s k
  have hended (r : TerminationReason) (hr : s.run.reason = some r) :
      step s = .fault (.terminated r) ∧ runFor k s = some (r, s) := ⟨step_of_reason hr, runFor_of_reason hr k⟩
  exact ⟨fun h => hended _ (by rw [h]; rfl), fun e h => hended _ (by rw [h]; rfl)⟩

/-- Settles O47: a run stops at the first state that has a reason, and fuel left over is never used. -/
theorem runAnswerDoesNotDependOnFuel : Obligations.RunAnswerDoesNotDependOnFuel := by
  intro k n s t r h
  have hr := reason_of_runFor h
  exact ⟨hr, fun hrun => (nomatch hr.symm.trans ((reason_eq_none_iff t).2 hrun)), runFor_add h n⟩

/-- Settles O48: the invariant holds after reset, the load and every step keep it, and it excludes the error. -/
theorem noRunEndsInUnsupportedAluOperation : Obligations.NoRunEndsInUnsupportedAluOperation := by
  rintro regInit memInit bytes s t k r hwf hboot hrun rfl
  have hlaunch : Inv (launch regInit memInit) := resetMeetsTheInvariant.1 regInit memInit hwf
  have hs : Inv s := loadKeepsTheInvariant bytes 0 _ s hlaunch hboot
  have ht : Inv t := runFor_keeps stepKeepsTheInvariant hs hrun
  have hreason := reason_of_runFor hrun
  cases ht' : t.run with
  | running | halted =>
    rw [ht'] at hreason
    cases hreason
  | faulted e =>
    rw [ht'] at hreason
    cases hreason
    exact ht.run_supported ht'

/-- Settles O49: each step leads to a state that differs in the latches alone and is again at a JMP to itself. -/
theorem jmpToItselfNeverEnds : Obligations.JmpToItselfNeverEnds := by
  intro s x hr hf hop hx htarget
  have hself (s : State) (h : s.JumpsToItself x) : ∃ t, step s = .next t ∧ t.JumpsToItself x :=
    ⟨s.latched, h.step_eq, h.running, h.fetchable, h.opcode, h.operand, h.target⟩
  exact runFor_eq_none_of_forever hself ⟨hr, hf, hop, hx, htarget⟩

end Sys2Proof
end

section
/-! PROOFS. Short sequences: PUSH then POP, CALL then RET, a pushed byte as code, and a word placed for the fetch (43_stack.md section 2;
44_control_flow.md section 2; 20_memory.md section 4; 40_cycle.md section 1). -/

namespace Sys2Proof.Machine

theorem toNat_sp_sub_one {s : State} (h : 1 ≤ s.sp.toNat) : (s.sp - 1).toNat = s.sp.toNat - 1 := by
  have h1 : (1 : Ptr).toNat = 1 := rfl
  have := s.sp.isLt
  rw [BitVec.toNat_sub, h1]
  omega

/-- The return address, popped, is the address after the CALL (R130). -/
theorem setWidth_returnAddress (s : State) (h : s.fetchable) : (returnAddress s).setWidth 9 = s.pc + 2 := by
  apply BitVec.eq_of_toNat_eq
  rw [toNat_setWidth_nine, returnAddress_toNat s h]
  exact (toNat_pc_add h (by decide : 2 ≤ 3)).symm

/-- A step that decodes a PUSH with room, from a Running core (R122). -/
theorem step_push_of_room {s : State} {x : Fin 8} (hr : s.run = .running) (hf : s.fetchable) (hop : s.byteAt s.pc.toNat = 0x45)
    (hx : (s.byteAt (s.pc.toNat + 1)).toNat = x.val) (h : 1 ≤ s.sp.toNat) (h' : s.sp.toNat ≤ 256) :
    step s = .next { s.latched with
      mem := s.mem.set (s.sp.toNat - 1) s.regs[x], sp := s.sp - 1, pc := s.pc + 2 } := by
  rw [step_of_fetchable hr hf, executeFetched_of_ok (current_of_opcode .push hop), Op.instr,
    exec_push_of_room s.latched hx h h']
  exact keepIfFaulted_of_safe s (State.safe_of_running hr)

/-- What stands in memory after a word is placed at a fetchable `pc`: its three bytes there, and every other byte as before (log 7). -/
theorem byteAt_withFetchWord {s : State} (hf : s.fetchable) (nbits w a : Nat) :
    (s.withFetchWord nbits w).byteAt a =
      if a = s.pc.toNat + 2 then wordByte nbits w 2
      else if a = s.pc.toNat + 1 then wordByte nbits w 1
      else if a = s.pc.toNat then wordByte nbits w 0
      else s.byteAt a := by
  unfold State.fetchable at hf
  have hsize : Config.memSize = 256 := rfl
  simp only [State.byteAt, State.withFetchWord, storeFetchBytes]
  rw [Memory.place_of_lt _ _ (by omega), Memory.place_of_lt _ _ (by omega), Memory.place_of_lt _ _ (by omega),
    Memory.get_set, Memory.get_set, Memory.get_set]

/-- The decoder reads a placed word as it reads the word itself. -/
theorem current_withFetchWord {s : State} (hf : s.fetchable) (nbits w : Nat) :
    (s.withFetchWord nbits w).current = decode (wordByte nbits w 0) (wordByte nbits w 1) (wordByte nbits w 2) := by
  have hpc : (s.withFetchWord nbits w).pc = s.pc := rfl
  rw [State.current, hpc, byteAt_withFetchWord hf, byteAt_withFetchWord hf, byteAt_withFetchWord hf]
  simp

theorem decodeTableWord_eq_some_iff (nbits w : Nat) (i : Instr) :
    decodeTableWord nbits w = some i ↔ decode (wordByte nbits w 0) (wordByte nbits w 1) (wordByte nbits w 2) = .ok i := by
  unfold decodeTableWord
  split <;> simp [*]

end Sys2Proof.Machine

namespace Sys2Proof

open Machine

/-- Settles O38: the POP reads at the lowered `sp`, where the PUSH stored, and raises it again. -/
theorem popAfterPushGivesTheValueBack : Obligations.PopAfterPushGivesTheValueBack := by
  intro a b x y s hx hy h h'
  have hsp := toNat_sp_sub_one h
  refine ⟨_, _, exec_push_of_room s hx h h', exec_pop_of_inside _ (hy.trans_lt y.isLt) ?_, ?_, ?_⟩
  · show (s.sp - 1).toNat ≤ 255
    omega
  · rw [getElem_regs_set _ _ (hy.trans_lt y.isLt), if_pos hy.symm]
    simp only [hsp, Memory.get_set_self]
  · exact BitVec.sub_add_cancel s.sp 1

/-- Settles O39: the CALL stores the return address at the lowered `sp`, and a RET there reads it and raises `sp` again. -/
theorem retAfterCallResumesAfterTheCall : Obligations.RetAfterCallResumesAfterTheCall := by
  intro a x s hx hf h h'
  have hsp := toNat_sp_sub_one h
  refine ⟨_, exec_call_of_room s hx h h', toNat_setWidth_nine _, fun u husp hbyte => ?_⟩
  have hinside : u.sp.toNat ≤ 255 := by
    rw [husp]
    show (s.sp - 1).toNat ≤ 255
    omega
  refine ⟨_, exec_ret_of_inside u hinside, ?_, ?_⟩
  · have hret : u.mem.get u.sp.toNat = returnAddress s := by
      refine hbyte.trans ?_
      show (s.mem.set (s.sp.toNat - 1) (returnAddress s)).get (s.sp - 1).toNat = _
      rw [hsp, Memory.get_set_self]
    show (u.mem.get u.sp.toNat).setWidth 9 = s.pc + 2
    rw [hret, setWidth_returnAddress s hf]
  · show u.sp + 1 = s.sp
    rw [husp]
    exact BitVec.sub_add_cancel s.sp 1

/-- Settles O40: the PUSH stores at its own `pc + 2`, which is the next `pc`, and the next fetch reads memory as it then is (D17). -/
theorem nextFetchSeesThePushedByte : Obligations.NextFetchSeesThePushedByte := by
  intro s x hr hf hop hx hsp
  unfold State.fetchable at hf
  have hpc : (s.pc + 2).toNat = s.pc.toNat + 2 := toNat_pc_add hf (by decide : 2 ≤ 3)
  have hmem (k : Nat) :
      (s.mem.set (s.sp.toNat - 1) s.regs[x]).get k = if k = s.pc.toNat + 2 then s.regs[x] else s.mem.get k := by
    rw [Memory.get_set, hsp]
    rfl
  refine ⟨_, step_push_of_room hr hf hop hx (by omega) (by omega), State.safe_of_running hr, rfl, ?_, fun h => ?_⟩
  · simp only [State.current, State.byteAt, hpc, hmem, if_true]
    simp
  · rw [fetch_of_fetchable _ (by show (s.pc + 2).toNat ≤ 253; omega)]
    simp only [State.latched, State.byteAt, hpc, hmem, if_true]
    simp

/-- Settles O50: the placed bytes are those the fetch reads and the decoder is given, and the step executes what it decodes. -/
theorem placedWordIsWhatTheStepRuns : Obligations.PlacedWordIsWhatTheStepRuns := by
  intro s nbits w i hr hf hw
  have hi : (s.withFetchWord nbits w).current = .ok i :=
    (current_withFetchWord hf nbits w).trans ((decodeTableWord_eq_some_iff nbits w i).1 hw)
  refine ⟨hi, ?_, fun a ha => ?_⟩
  · rw [step_of_fetchable (s := s.withFetchWord nbits w) hr hf, executeFetched_of_ok hi]
  · rw [byteAt_withFetchWord hf, if_neg (by omega), if_neg (by omega), if_neg (by omega)]

end Sys2Proof
end

section
/-! PROOFS. The loader: a byte written as 8 binary digits, and the three failures (30_encoding.md R74; 40_cycle.md R96). -/

namespace Sys2Proof.Machine

/-! ### A literal -/

/-- The binary digit of a bit. -/
def binaryDigit (bit : Bool) : Char := if bit then '1' else '0'

/-- Digits read on top of `acc` add their bits to it, most significant first (00_scope.md R9). -/
theorem binaryValue_map_binaryDigit (bits : List Bool) (acc : Nat) :
    binaryValue acc (bits.map binaryDigit) = some (bits.foldl (fun v bit => 2 * v + bit.toNat) acc) := by
  induction bits generalizing acc with
  | nil => rfl
  | cons bit bits ih =>
    cases bit <;> exact ih _

/-- The bits of a byte from bit 7 down make up its leading `n` bits. -/
theorem foldl_range_getLsbD (b : Byte) {n : Nat} (hn : n ≤ 8) :
    ((List.range n).map fun k => b.getLsbD (7 - k)).foldl (fun v bit => 2 * v + bit.toNat) 0 = b.toNat / 2 ^ (8 - n) := by
  induction n with
  | zero =>
    have := b.isLt
    simp
    omega
  | succ n ih =>
    have hpow : 2 ^ (8 - n) = 2 ^ (7 - n) * 2 := by rw [← Nat.pow_succ]; congr 1; omega
    have hbit : (b.getLsbD (7 - n)).toNat = b.toNat / 2 ^ (7 - n) % 2 := by
      rw [BitVec.getLsbD, Nat.testBit_eq_decide_div_mod_eq]
      rcases Nat.mod_two_eq_zero_or_one (b.toNat / 2 ^ (7 - n)) with h | h <;> simp [h]
    have hsucc : 8 - (n + 1) = 7 - n := by omega
    rw [List.range_succ, List.map_append, List.foldl_append, ih (by omega), List.map_singleton, List.foldl_cons, List.foldl_nil,
      hbit, hpow, ← Nat.div_div_eq_div_mul, hsucc]
    omega

/-- A line that starts with a digit has no leading spaces. -/
theorem trimLeft_binaryDigit_cons (bit : Bool) (line : List Char) :
    trimLeft (binaryDigit bit :: line) = binaryDigit bit :: line := by
  cases bit <;> rfl

/-- A line that starts with eight digits is the byte of their value, whatever follows (R74). -/
theorem readLine_of_digits {bits : List Bool} (rest : List Char) (h : bits.length = 8) :
    readLine (bits.map binaryDigit ++ rest) = .byte (BitVec.ofNat 8 (bits.foldl (fun v bit => 2 * v + bit.toNat) 0)) := by
  have htake : (bits.map binaryDigit ++ rest).take 8 = bits.map binaryDigit :=
    List.take_left' ((List.length_map _).trans h)
  obtain ⟨bit, bits, rfl⟩ := List.exists_cons_of_length_eq_add_one h
  have hhash : binaryDigit bit ≠ '#' := by cases bit <;> decide
  rw [List.map_cons, List.cons_append] at htake ⊢
  simp only [readLine, trimLeft_binaryDigit_cons, if_neg hhash, htake, ← List.map_cons (f := binaryDigit), List.length_map, h,
    binaryValue_map_binaryDigit, Nat.lt_irrefl, if_false]

/-! ### The failures -/

theorem readLines_cons_of_skipped {line : List Char} (lines : List (List Char)) (h : readLine line = .skipped) :
    readLines (line :: lines) = readLines lines := by
  rw [readLines, h]

theorem readLines_cons_of_invalid {line : List Char} (lines : List (List Char)) (h : readLine line = .invalid) :
    readLines (line :: lines) = .error .invalidInstructionLiteral := by
  rw [readLines, h]

theorem readLines_cons_of_byte {line : List Char} {b : Byte} (lines : List (List Char)) (h : readLine line = .byte b) :
    readLines (line :: lines) = (readLines lines).map (b :: ·) := by
  rw [readLines, h]
  cases readLines lines <;> rfl

/-- Reading lines fails exactly on a line that is no literal, and in no other way (R96). -/
theorem readLines_eq_error_iff (lines : List (List Char)) (e : LoaderFailure) :
    readLines lines = .error e ↔ e = .invalidInstructionLiteral ∧ ∃ l ∈ lines, readLine l = .invalid := by
  induction lines with
  | nil => simp [readLines]
  | cons line lines ih =>
    cases hl : readLine line with
    | skipped => simp [readLines_cons_of_skipped lines hl, ih, hl]
    | invalid => simp [readLines_cons_of_invalid lines hl, hl, eq_comm]
    | byte b =>
      rw [readLines_cons_of_byte lines hl]
      simp only [List.mem_cons, exists_eq_or_imp, hl, reduceCtorEq, false_or, ← ih]
      cases readLines lines <;> simp [Except.map]

/-- Reading lines gives no byte exactly when it skips each of them (R74). -/
theorem readLines_eq_nil_iff (lines : List (List Char)) : readLines lines = .ok [] ↔ ∀ l ∈ lines, readLine l = .skipped := by
  induction lines with
  | nil => simp [readLines]
  | cons line lines ih =>
    cases hl : readLine line with
    | skipped => simp [readLines_cons_of_skipped lines hl, ih, hl]
    | invalid => simp [readLines_cons_of_invalid lines hl, hl]
    | byte b =>
      rw [readLines_cons_of_byte lines hl]
      cases readLines lines <;> simp [Except.map, hl]

/-- A file fails as its lines do, or for having no byte (R96). -/
theorem readProgram_eq_error_iff (lines : List (List Char)) (e : LoaderFailure) :
    readProgram (some lines) = .error e ↔ readLines lines = .error e ∨ (readLines lines = .ok [] ∧ e = .emptyProgram) := by
  rw [readProgram]
  split
  next h => simp [h, eq_comm]
  next h => simp [h]
  next h => simp [h]

theorem readProgram_eq_invalid_iff (lines : List (List Char)) :
    readProgram (some lines) = .error .invalidInstructionLiteral ↔ ∃ l ∈ lines, readLine l = .invalid := by
  simp [readProgram_eq_error_iff, readLines_eq_error_iff]

theorem readProgram_eq_empty_iff (lines : List (List Char)) :
    readProgram (some lines) = .error .emptyProgram ↔ ∀ l ∈ lines, readLine l = .skipped := by
  simp [readProgram_eq_error_iff, readLines_eq_error_iff, readLines_eq_nil_iff]

/-- A failing loader is the failure of the start (R96). -/
theorem start_of_loader_error {text : Option (List (List Char))} {e : LoaderFailure} (regInit : Vector Byte 8) (memInit : Memory)
    (h : readProgram text = .error e) : start regInit memInit text = .error (.loader e) := by
  rw [start, h]

/-- The three codes differ (D25). -/
theorem LoaderFailure.code_injective : Function.Injective LoaderFailure.code := by
  have hnodup := Config.loadFailCodes.distinct
  simp only [List.nodup_cons, List.mem_cons, List.not_mem_nil, or_false, not_or] at hnodup
  obtain ⟨⟨hni, hne⟩, hie, -⟩ := hnodup
  intro e e' h
  cases e with
  | programFileNotFound =>
    cases e' with
    | programFileNotFound => rfl
    | invalidInstructionLiteral => exact absurd h hni
    | emptyProgram => exact absurd h hne
  | invalidInstructionLiteral =>
    cases e' with
    | programFileNotFound => exact absurd h.symm hni
    | invalidInstructionLiteral => rfl
    | emptyProgram => exact absurd h hie
  | emptyProgram =>
    cases e' with
    | programFileNotFound => exact absurd h.symm hne
    | invalidInstructionLiteral => exact absurd h.symm hie
    | emptyProgram => rfl

end Sys2Proof.Machine

namespace Sys2Proof

open Machine

/-- Settles O51: a line of 8 digits is trimmed and taken as it is, and its digits add up to the byte whose bits they are. -/
theorem binaryLiteralLineIsItsByte : Obligations.BinaryLiteralLineIsItsByte := by
  intro b rest
  have hdigits : (List.range 8).map (fun k => if b.getLsbD (7 - k) then '1' else '0') =
      ((List.range 8).map fun k => b.getLsbD (7 - k)).map binaryDigit := by
    rw [List.map_map]
    rfl
  rw [hdigits, readLine_of_digits rest (by simp), foldl_range_getLsbD b (le_refl 8)]
  simp

/-- Settles O52: reading stops at the first line that is no literal, skipped lines give no byte, and the codes are distinct by their
type. -/
theorem loaderFailuresAreTold : Obligations.LoaderFailuresAreTold :=
  ⟨rfl, fun lines => ⟨readProgram_eq_invalid_iff lines, readProgram_eq_empty_iff lines⟩,
    fun regInit memInit _ _ h => start_of_loader_error regInit memInit h, fun _ _ h => LoaderFailure.code_injective h⟩

end Sys2Proof
end
